-- ==== Sys2Proof/Word.lean ====
section
/-! DEFINITION. The two data widths of BFCORE (spec/00_scope.md R9): every register and host transfer is a 32-bit
word, every key and bit-array storage unit an 8-bit byte. -/

namespace Sys2Proof

/-- A register or host-transfer value, 32 bits (R9). -/
abbrev Word := BitVec 32

/-- A key byte or bit-array storage byte, 8 bits (R9). -/
abbrev Byte := BitVec 8

end Sys2Proof
end

