-- ==== Sys2Proof/Config.lean ====
section
/-! DEFINITION. What an implementation of BFCORE fixes (spec/00_scope.md R8, spec/20_memory.md R45) and the one
free value of the spec (spec/93_implementation_defined.md P5). -/

namespace Sys2Proof

/-- The implementation parameters of R8, and the platform's parameter `BFCORE_BASE` of R45 (P1 to P3). A machine
carries its parameters in `State.params`; no step changes them (DESIGN CHOICE, notes/assumptions/2.md). -/
structure Params where
  /-- `KEY_MAX`: bytes of key buffer. -/
  keyMax : Nat
  /-- `ARRAY_BYTES`: bytes of bit-array storage. -/
  arrayBytes : Nat
  /-- `BFCORE_BASE`: where the window stands in the platform's address space (used by the host side only). -/
  base : Nat
deriving DecidableEq, Repr

/-- `CAP_BITS = 8 * ARRAY_BYTES`, the largest legal SIZE and M (R8). -/
def Params.capBits (p : Params) : Nat := 8 * p.arrayBytes

/-- The values R8 suggests for `KEY_MAX` and `ARRAY_BYTES`. DESIGN CHOICE (notes/assumptions/1.md): the machine
after reset is shown at these values, and `BFCORE_BASE`, for which the spec suggests none, is 0. -/
def Params.suggested : Params := { keyMax := 256, arrayBytes := 4096, base := 0 }

/-- The value that the `n`-th read of RESULT or of the raw window made while BUSY = 1 returns: "any 32-bit value (a
free draw of the model, possibly different on each read)" (R122, P5). No body: nothing can be proved of it (DESIGN
CHOICE: the counter it is applied to, notes/assumptions/3.md). -/
opaque Config.freeBusyRead : Nat → Word

end Sys2Proof
end

