-- ==== Sys2Proof/Syntax.lean ====
section
/-! DEFINITION. The instructions of BFCORE are its ten commands (spec/30_encoding.md R53). Operands are implicit
registers (R52), so no constructor has an argument. -/

namespace Sys2Proof

/-- BFCORE command set 1: one constructor for each row of spec/opcode_table.json. -/
inductive Instr where
  /-- HASH, `hash(bytes, seed)` (R70). -/
  | hash
  /-- BA_INIT, `BitArray::new(size_in_bits)` (R75). -/
  | baInit
  /-- BA_TEST, `is_set(pos)` (R76). -/
  | baTest
  /-- BA_SET, `set(pos)` (R77). -/
  | baSet
  /-- BA_CLEAR, `unset(pos)` (R78). -/
  | baClear
  /-- BA_FLIP, `flip(pos)` (R79). -/
  | baFlip
  /-- BF_CONFIG, the allocation half of `BloomFilter::new` (R86). -/
  | bfConfig
  /-- BF_INSERT, `insert(value)` (R87). -/
  | bfInsert
  /-- BF_QUERY, `maybe_present(value)` (R88). -/
  | bfQuery
  /-- SOFT_RESET, the block reset (R95). -/
  | softReset
deriving DecidableEq, Repr

end Sys2Proof
end

