-- ==== Sys2Proof/WellFormed.lean ====
section
/-! DEFINITION. What makes a command, a command word and a choice of parameters legal (spec/00_scope.md R8,
spec/30_encoding.md R51 to R55). -/

namespace Sys2Proof

/-- Every command is well formed: "no register number and no immediate is encoded in a command word" (R52), so there
is no operand to check. -/
def Instr.wellFormed : Instr → Bool
  | .hash => true
  | .baInit => true
  | .baTest => true
  | .baSet => true
  | .baClear => true
  | .baFlip => true
  | .bfConfig => true
  | .bfInsert => true
  | .bfQuery => true
  | .softReset => true

/-- A 32-bit command word taken apart by format C (R51): MBZ is bits 31:8, OP is bits 7:0. -/
structure FormatC where
  mbz : BitVec 24
  op : Byte
deriving DecidableEq, Repr

/-- The assigned values of OP (R53). -/
def assignedOps : List Byte := [0x01, 0x10, 0x11, 0x12, 0x13, 0x14, 0x20, 0x21, 0x22, 0xFF]

/-- MBZ "must be zero; any 1 bit makes the word illegal" (R51). -/
def FormatC.mbzClear (c : FormatC) : Bool := c.mbz == 0

/-- OP is one of the ten of the opcode map (R53). -/
def FormatC.opAssigned (c : FormatC) : Bool := assignedOps.contains c.op

/-- The ten legal words (R53); "every word other than the ten of rule R53 is illegal" (R55). -/
def FormatC.wellFormed (c : FormatC) : Bool := c.mbzClear && c.opAssigned

/-- `KEY_MAX`: "multiple of 4, `4 <= KEY_MAX <= 4096`" (R8). -/
def Params.keyMaxLegal (p : Params) : Bool := p.keyMax % 4 == 0 && 4 ≤ p.keyMax && p.keyMax ≤ 4096

/-- `ARRAY_BYTES`: "multiple of 4, `4 <= ARRAY_BYTES <= 2^28`" (R8). -/
def Params.arrayBytesLegal (p : Params) : Bool :=
  p.arrayBytes % 4 == 0 && 4 ≤ p.arrayBytes && p.arrayBytes ≤ 2 ^ 28

/-- The legal parameter values of R8. -/
def Params.legal (p : Params) : Bool := p.keyMaxLegal && p.arrayBytesLegal

end Sys2Proof
end

