-- ==== Sys2Proof/Decode.lean ====
section
/-! DEFINITION. The command decoder and, after it, the encoder (spec/30_encoding.md R51 to R56). The decoder is total
over all 2^32 words (R54) and rejects by name. -/

namespace Sys2Proof

/-- Why a word is no command (R54, R55). Both raise ILLEGAL_CMD when the word is completed. -/
inductive Rejection where
  /-- A bit of MBZ (31:8) is 1. -/
  | mbzNotZero (w : Word)
  /-- OP is not in the opcode map of R53. -/
  | opUnassigned (op : Byte)
deriving DecidableEq, Repr

/-- MBZ, bits 31:8 of a command word (R51). -/
def mbzField (w : Word) : BitVec 24 := w.extractLsb' 8 24

/-- OP, bits 7:0 of a command word (R51). -/
def opField (w : Word) : Byte := w.extractLsb' 0 8

/-- The fields of a command word (R51). -/
def toFormatC (w : Word) : FormatC := { mbz := mbzField w, op := opField w }

/-- The opcode map (R53), one row a line. -/
def opcodeMap : List (Byte × Instr) :=
  [ (0x01, .hash),
    (0x10, .baInit),
    (0x11, .baTest),
    (0x12, .baSet),
    (0x13, .baClear),
    (0x14, .baFlip),
    (0x20, .bfConfig),
    (0x21, .bfInsert),
    (0x22, .bfQuery),
    (0xFF, .softReset) ]

/-- The command with opcode `op`, from a list of rows of the opcode map. -/
def lookupOp (op : Byte) : List (Byte × Instr) → Option Instr
  | [] => none
  | (o, i) :: rows => if op = o then some i else lookupOp op rows

/-- The command a 32-bit word stands for (R53, R55). -/
def decode (w : Word) : Except Rejection Instr :=
  if mbzField w = 0 then
    match lookupOp (opField w) opcodeMap with
    | some i => .ok i
    | none => .error (.opUnassigned (opField w))
  else .error (.mbzNotZero w)

/-- The decode of a pending word at its completion (R54): the nine queued commands. "0xFF never reaches decode: it is
handled at issue", and R54's set of opcodes leaves it out, so it is rejected here (DEDUCED,
notes/assumptions/11.md). -/
def decodePending (w : Word) : Except Rejection Instr :=
  match decode w with
  | .ok .softReset => .error (.opUnassigned (opField w))
  | r => r

/-- The OP value of a command (R53). -/
def opcode : Instr → Byte
  | .hash => 0x01
  | .baInit => 0x10
  | .baTest => 0x11
  | .baSet => 0x12
  | .baClear => 0x13
  | .baFlip => 0x14
  | .bfConfig => 0x20
  | .bfInsert => 0x21
  | .bfQuery => 0x22
  | .softReset => 0xFF

/-- The word of a command: `w = zext_32(OP)` (R53). -/
def encode (i : Instr) : Word := (opcode i).setWidth 32

/-- The instruction the decoder reads from a table word: "one length (one 32-bit word per command)" (R56), so a word of
any other length is none. -/
def decodeTableWord (nbits w : Nat) : Option Instr :=
  if nbits = 32 ∧ w < 2 ^ 32 then
    match decode (BitVec.ofNat 32 w) with
    | .ok i => some i
    | .error _ => none
  else none

end Sys2Proof
end

