-- ==== Sys2Proof/Machine/State.lean ====
section
/-! DEFINITION. The state of BFCORE (spec/10_state.md) and of its one HOST (spec/20_memory.md R33, R46), as plain
data, and the state after reset (R32, R116). -/

namespace Sys2Proof.Machine

/-- A byte memory: the bytes that differ from 0x00, by rising address. -/
abbrev Memory := List Host.Cell

/-- What an unlisted byte of KEY or ARR reads as. Reset makes "every KEY byte 0x00; every ARR byte 0x00" (R32). -/
def Memory.unlisted : Byte := 0x00

/-- The canonical form: addresses strictly rising, and no entry equal to what an unlisted address reads as. -/
abbrev Memory.wf (m : Memory) : Prop :=
  m.Pairwise (fun c d => c.1 < d.1) ∧ ∀ c ∈ m, c.2 ≠ Memory.unlisted

/-- STATUS.ERRCODE (R99). The reserved codes 0x9 to 0xF are "never produced", so they have no constructor. -/
inductive ErrCode where
  /-- 0x0 NONE. -/
  | noFault
  /-- 0x1 ILLEGAL_CMD. -/
  | illegalCmd
  /-- 0x2 BOUNDS. -/
  | bounds
  /-- 0x3 BAD_SIZE. -/
  | badSize
  /-- 0x4 BAD_CONFIG. -/
  | badConfig
  /-- 0x5 NOT_CONFIGURED. -/
  | notConfigured
  /-- 0x6 ALREADY_CONFIGURED. -/
  | alreadyConfigured
  /-- 0x7 OWNED. -/
  | owned
  /-- 0x8 KEY_LEN_ERR. -/
  | keyLenErr
deriving DecidableEq, Repr

/-- One HOST access: exactly 32 bits at a byte offset of the window (R33), the triple `(R|W, offset, data)` of R57. -/
inductive Access where
  | read (off : Word)
  | write (off data : Word)
deriving DecidableEq, Repr

/-- Why an access is a bus error (R37). -/
inductive BusError where
  /-- `a[1:0] ≠ 0` (R34). -/
  | misaligned
  /-- A reserved offset (R35). -/
  | reserved
deriving DecidableEq, Repr

/-- What HOST gets back from one access. -/
inductive Response where
  /-- A read's 32-bit value. -/
  | data (v : Word)
  /-- A write was carried out, dropped or ignored: HOST is not told which. -/
  | done
  /-- "A bus error is the HOST-side outcome of a misaligned access … or an access to a reserved offset" (R37).
  The run goes on (DESIGN CHOICE, notes/assumptions/6.md). -/
  | busError (e : BusError)
deriving DecidableEq, Repr

/-- An access HOST has made, with what it got back. -/
structure Record where
  access : Access
  response : Response
deriving DecidableEq, Repr

/-- What the outside does to BFCORE. -/
inductive Event where
  /-- HOST makes an access (R33). -/
  | access (a : Access)
  /-- The platform asserts the hardware reset input (R115). -/
  | hwReset
deriving DecidableEq, Repr

/-- The next thing the outside does and where it falls in the interleaving of R46: with `beforeCompletion` it arrives
while a command is still pending (if one is), without it only once no command is pending. A list of these is one
interleaving of HOST accesses and CORE completion steps, and every interleaving is such a list (DESIGN CHOICE,
notes/assumptions/5.md). -/
structure Input where
  beforeCompletion : Bool
  event : Event
deriving DecidableEq, Repr

/-- Why a step stops. Both are raised only in states outside `Invariant` (Sys2Proof/Safety.lean), which no run from reset
reaches; stopping there is safe (DEDUCED, notes/assumptions/8.md). -/
inductive Fault where
  /-- A storage byte `ARR[b]` with `b >= ARRAY_BYTES` was addressed: it does not exist (R28). Raised by BA_TEST,
  BA_SET, BA_CLEAR, BA_FLIP, BF_INSERT and BF_QUERY when SIZE > CAP_BITS. Safe. -/
  | noSuchArrByte (b : Nat)
  /-- `a mod b` with `b = 0`: "defined only for `b >= 1`" (R12). Raised by BF_INSERT and BF_QUERY when a configured
  filter has SIZE = 0. Safe. -/
  | moduloByZero
deriving DecidableEq, Repr

/-- Why a step has no meaning. -/
inductive Refusal where
  /-- Raised by `exec` for a command with no meaning in this model yet (none is left). Safe. -/
  | notModelled (mnemonic : String)
deriving DecidableEq, Repr

/-- Everything the spec gives the block, then what the model holds of the HOST side. STATUS.BUSY is `pend ≠ none`
(R24), CAP_BITS and CAP_KEY are computed from `params` (R23). -/
structure State where
  /-- KEY_MAX, ARRAY_BYTES, BFCORE_BASE (R8, R45): fixed for the machine. -/
  params : Params
  /-- PEND, the accepted command word (R24). -/
  pend : Option Word
  /-- STATUS.FAULT (R19). -/
  fault : Bool
  /-- STATUS.CONFIGURED (R19). -/
  configured : Bool
  /-- STATUS.OVR (R19). -/
  ovr : Bool
  /-- STATUS.ERRCODE (R19, R99). -/
  errCode : ErrCode
  /-- STATUS.ERR_OP (R19). -/
  errOp : Byte
  /-- ARG (R20). -/
  arg : Word
  /-- RESULT (R21). -/
  result : Word
  /-- KEY_LEN (R20). -/
  keyLen : Word
  /-- CFG_M (R20). -/
  cfgM : Word
  /-- CFG_K (R20). -/
  cfgK : Word
  /-- SIZE (R22). -/
  size : Word
  /-- FILTER_K (R22). -/
  filterK : Word
  /-- ERR_ARG (R23). -/
  errArg : Word
  /-- KEY, the key buffer (R27). -/
  key : Memory
  /-- ARR, the bit-array storage (R28). -/
  arr : Memory
  /-- HOST side: what the outside does next, first first. -/
  inputs : List Input
  /-- HOST side: the accesses made so far and what they returned, last first. -/
  log : List Record
  /-- The model's own: how many free reads (R122) have been drawn. -/
  draws : Nat
deriving DecidableEq, Repr

/-- The state after reset (R32): every value is the spec's. The parameters are those R8 suggests
(notes/assumptions/1.md); nothing has been asked of the block yet; `draws` is the model's own
(notes/assumptions/3.md). -/
def State.reset : State where
  params := Params.suggested
  pend := none
  fault := false
  configured := false
  ovr := false
  errCode := .noFault
  errOp := 0
  arg := 0
  result := 0
  keyLen := 0
  cfgM := 0
  cfgK := 0
  size := 0
  filterK := 0
  errArg := 0
  key := []
  arr := []
  inputs := []
  log := []
  draws := 0

end Sys2Proof.Machine
end

