-- ==== Sys2Proof/Machine/Ops.lean ====
section
/-! DEFINITION. The operations the commands share: byte memory, single bits of ARR, fault entry and the only way out
of it, reset. -/

namespace Sys2Proof.Machine

/-- The byte at address `a`. -/
def Memory.read : Memory → Nat → Byte
  | [], _ => Memory.unlisted
  | (b, v) :: m, a => if a = b then v else Memory.read m a

/-- Store the byte `v` at address `a`, keeping the canonical form. -/
def Memory.write : Memory → Nat → Byte → Memory
  | [], a, v => if v = Memory.unlisted then [] else [(a, v)]
  | (b, x) :: m, a, v =>
    if a < b then (if v = Memory.unlisted then (b, x) :: m else (a, v) :: (b, x) :: m)
    else if a = b then (if v = Memory.unlisted then m else (a, v) :: m)
    else (b, x) :: Memory.write m a v

/-- A memory whose every byte is 0x00, as BA_INIT, BF_CONFIG and reset leave ARR (R75, R86, R116). -/
def Memory.zeroed : Memory := []

/-- STATUS.BUSY: "STATUS.BUSY = 1 exactly when PEND ≠ none" (R24). -/
def State.busy (s : State) : Bool := s.pend.isSome

/-- `ByteOf(pos) = pos div 8` (R71). -/
def byteOf (pos : Nat) : Nat := pos / 8

/-- `MaskOf(pos) = 1 << (pos mod 8)` (R71). -/
def maskOf (pos : Nat) : Byte := 1#8 <<< (pos % 8)

/-- Bit `pos` of the bit array, `ARR[pos div 8][pos mod 8]` (R28, R71). -/
def State.bit (s : State) (pos : Nat) : Bool := (s.arr.read (byteOf pos)).getLsbD (pos % 8)

/-- Go on with an answer, or stop where nothing could be answered. -/
def andThen {α β : Type} (r : Except Fault α) (k : α → Except Fault β) : Except Fault β :=
  match r with
  | .error e => .error e
  | .ok a => k a

/-- `MemRead(ARR, b, 1)` (R13): a byte that does not exist (R28) cannot be read. -/
def arrRead (b : Nat) (s : State) : Except Fault Byte :=
  if b < s.params.arrayBytes then .ok (s.arr.read b) else .error (.noSuchArrByte b)

/-- The single-byte read-modify-write of R73: `f` gives the new byte from the old one and the mask. -/
def modifyBit (f : Byte → Byte → Byte) (pos : Nat) (s : State) : Except Fault State :=
  andThen (arrRead (byteOf pos) s) fun v => .ok { s with arr := s.arr.write (byteOf pos) (f v (maskOf pos)) }

/-- The tested bit of R76 and R88: `MemRead(ARR, pos div 8, 1)[pos mod 8]`. -/
def testBit (pos : Nat) (s : State) : Except Fault Bool :=
  andThen (arrRead (byteOf pos) s) fun v => .ok (v.getLsbD (pos % 8))

/-- The end of a completion step: `PEND <- none` and with it `BUSY <- 0` (R54). -/
def State.complete (s : State) : State := { s with pend := none }

/-- Complete a command that has carried out its effect, or stop where it met something that does not exist. -/
def finish : Except Fault State → Host.Outcome State Fault Refusal
  | .ok s => .next s.complete
  | .error e => .fault e

/-- What fault entry writes for the command word `w` (R101): FAULT, ERRCODE, ERR_OP, ERR_ARG, PEND and BUSY, "and
nothing else". -/
def State.enterFault (w : Word) (code : ErrCode) (a : Word) (s : State) : State :=
  { s with fault := true, errCode := code, errOp := opField w, errArg := a, pend := none }

/-- `raise Fault(code, arg)` during the completion of the word `w` (R101). The block goes on, in its faulted state:
there is no vector and no saved program counter. -/
def raiseFault (w : Word) (code : ErrCode) (a : Word) (s : State) : Host.Outcome State Fault Refusal :=
  .next (s.enterFault w code a)

/-- Reset (R116), the only exit from the faulted state (R106): every piece of the block's state takes its value of
R32. The parameters, and with them CAP_BITS and CAP_KEY, stay, and so does the HOST side, which is no part of the
block (DESIGN CHOICE, notes/assumptions/7.md). -/
def State.resetBlock (s : State) : State :=
  { State.reset with params := s.params, inputs := s.inputs, log := s.log, draws := s.draws }

/-- A dropped HOST write: "stores nothing and sets STATUS.OVR <- 1" (R121). -/
def State.noteOverrun (s : State) : State := { s with ovr := true }

/-- HOST has made the access `a` and got `r` back. -/
def State.record (a : Access) (r : Response) (s : State) : State := { s with log := { access := a, response := r } :: s.log }

end Sys2Proof.Machine
end

