-- ==== Sys2Proof/Machine/Flags.lean ====
section
/-! DEFINITION. The STATUS register as HOST reads it (spec/10_state.md R19). BFCORE has no arithmetic condition codes
(R31): the only flags are these. -/

namespace Sys2Proof.Machine

/-- The 4-bit error codes (R99). -/
def errCodeBits : ErrCode → BitVec 4
  | .noFault => 0x0
  | .illegalCmd => 0x1
  | .bounds => 0x2
  | .badSize => 0x3
  | .badConfig => 0x4
  | .notConfigured => 0x5
  | .alreadyConfigured => 0x6
  | .owned => 0x7
  | .keyLenErr => 0x8

/-- STATUS (R19), from bit 31 down: 31:24 reserved, ERR_OP 23:16, 15:12 reserved, ERRCODE 11:8, 7:4 reserved, OVR 3,
CONFIGURED 2, FAULT 1, BUSY 0. Reserved bits read 0. -/
def State.status (s : State) : Word :=
  0#8 ++ s.errOp ++ 0#4 ++ errCodeBits s.errCode ++ 0#4 ++ BitVec.ofBool s.ovr ++ BitVec.ofBool s.configured ++
    BitVec.ofBool s.fault ++ BitVec.ofBool s.busy

/-- A BA_TEST or BF_QUERY answer as a data word, `zext_32` of one bit (R76, R88). -/
def boolWord (b : Bool) : Word := (BitVec.ofBool b).setWidth 32

end Sys2Proof.Machine
end

