-- ==== Sys2Proof/Machine/Operands.lean ====
section
/-! DEFINITION. Where values come from: little-endian byte groups (spec/20_memory.md R42), the key of a command
(spec/10_state.md R27), the register map (R17) and the window's offset decoding (spec/20_memory.md R35). Commands take
their operands from fixed registers (spec/30_encoding.md R52). -/

namespace Sys2Proof.Machine

/-- Bytes as a little-endian unsigned integer zero-extended to 32 bits: byte `t` at bits `8t+7 : 8t` (R42). -/
def leWord : List Byte → Word
  | [] => 0
  | b :: bs => b.setWidth 32 ||| (leWord bs <<< 8)

/-- Byte `t` of a little-endian word, `d[8t+7 : 8t]` (R38, R42). -/
def leByte (d : Word) (t : Nat) : Byte := d.extractLsb' (8 * t) 8

/-- `MemRead(key, a, n)` (R13): `n` bytes from `a` on, little-endian. -/
def memReadLE (bytes : List Byte) (a n : Nat) : Word := leWord ((bytes.drop a).take n)

/-- The first `n` bytes of the key buffer, `KEY[0 .. n-1]` (R27). -/
def keyPrefix (n : Nat) (s : State) : List Byte := (List.range n).map (fun j => s.key.read j)

/-- The key of a command: "the byte sequence `KEY[0], ..., KEY[KEY_LEN-1]`" (R27). -/
def keyBytes (s : State) : List Byte := keyPrefix s.keyLen.toNat s

/-- The registers of the window (R17). -/
inductive Reg where
  | cmd | status | arg | result | keyLen | cfgM | cfgK | size | filterK | errArg | capBits | capKey
deriving DecidableEq, Repr

/-- The register offsets (R17). -/
def regOffset : Reg → Nat
  | .cmd => 0x000
  | .status => 0x004
  | .arg => 0x008
  | .result => 0x00C
  | .keyLen => 0x010
  | .cfgM => 0x014
  | .cfgK => 0x018
  | .size => 0x01C
  | .filterK => 0x020
  | .errArg => 0x024
  | .capBits => 0x028
  | .capKey => 0x02C

/-- The register at an offset (R17). -/
def regAt : Nat → Option Reg
  | 0x000 => some .cmd
  | 0x004 => some .status
  | 0x008 => some .arg
  | 0x00C => some .result
  | 0x010 => some .keyLen
  | 0x014 => some .cfgM
  | 0x018 => some .cfgK
  | 0x01C => some .size
  | 0x020 => some .filterK
  | 0x024 => some .errArg
  | 0x028 => some .capBits
  | 0x02C => some .capKey
  | _ => none

/-- First offset of the key window (R35, R38). -/
def keyWindowBase : Nat := 0x00001000

/-- First offset of the raw window (R35, R40). -/
def rawWindowBase : Nat := 0x80000000

/-- What an access reaches (R35). -/
inductive Target where
  | reg (r : Reg)
  /-- Key-window word `j`: key bytes `4j .. 4j+3` (R38). -/
  | keyWord (j : Nat)
  /-- Raw-window word `w`: storage bytes `4w .. 4w+3` (R40). -/
  | rawWord (w : Nat)
deriving DecidableEq, Repr

/-- The decoding of an offset: alignment first (R34), then the table of R35, total over all offsets. -/
def decodeOffset (p : Params) (a : Word) : Except BusError Target :=
  if a.toNat % 4 = 0 then
    match regAt a.toNat with
    | some r => .ok (.reg r)
    | none =>
      if keyWindowBase ≤ a.toNat ∧ a.toNat < keyWindowBase + p.keyMax then
        .ok (.keyWord ((a.toNat - keyWindowBase) / 4))
      else if rawWindowBase ≤ a.toNat ∧ a.toNat < rawWindowBase + p.arrayBytes then
        .ok (.rawWord ((a.toNat - rawWindowBase) / 4))
      else .error .reserved
  else .error .misaligned

/-- Key-window word `j`: `{KEY[4j+3], KEY[4j+2], KEY[4j+1], KEY[4j]}` (R38). -/
def keyWordAt (j : Nat) (s : State) : Word :=
  leWord [s.key.read (4 * j), s.key.read (4 * j + 1), s.key.read (4 * j + 2), s.key.read (4 * j + 3)]

/-- `B(b)` of R40: the storage byte inside the bit array proper, 0x00 from `(SIZE + 7) div 8` on. -/
def rawByte (b : Nat) (s : State) : Byte := if b < (s.size.toNat + 7) / 8 then s.arr.read b else 0x00

/-- Raw-window word `w`: `{B(4w+3), B(4w+2), B(4w+1), B(4w)}` (R40). -/
def rawWordAt (w : Nat) (s : State) : Word :=
  leWord [rawByte (4 * w) s, rawByte (4 * w + 1) s, rawByte (4 * w + 2) s, rawByte (4 * w + 3) s]

/-- The stored value HOST reads at a register: CMD "returns 0" (R18), CAP_BITS and CAP_KEY are constants (R23). -/
def regValue (r : Reg) (s : State) : Word :=
  match r with
  | .cmd => 0
  | .status => s.status
  | .arg => s.arg
  | .result => s.result
  | .keyLen => s.keyLen
  | .cfgM => s.cfgM
  | .cfgK => s.cfgK
  | .size => s.size
  | .filterK => s.filterK
  | .errArg => s.errArg
  | .capBits => BitVec.ofNat 32 s.params.capBits
  | .capKey => BitVec.ofNat 32 s.params.keyMax

end Sys2Proof.Machine
end

