-- ==== Sys2Proof/Machine/BitArray.lean ====
section
/-! DEFINITION. BAU, the bit-array accessor, and its five commands (spec/41_bit_array.md R71 to R79). -/

namespace Sys2Proof.Machine

/-- The template of BA_SET, BA_CLEAR and BA_FLIP (R77 to R79) for the command word `w`: OWNED while a filter owns the
array (R74), then BOUNDS for `pos >= SIZE` (R72), then one read-modify-write of one byte (R73). -/
def mutateBit (w : Word) (f : Byte → Byte → Byte) (s : State) : Host.Outcome State Fault Refusal :=
  if s.configured then raiseFault w .owned s.arg s
  else if s.size ≤ s.arg then raiseFault w .bounds s.arg s
  else finish (modifyBit f s.arg.toNat s)

/-- BA_INIT (R75): OWNED, then BAD_SIZE for `n > CAP_BITS`, then all of ARR is zeroed and `SIZE <- n`. -/
def execBaInit (s : State) : Host.Outcome State Fault Refusal :=
  if s.configured then raiseFault (encode .baInit) .owned s.arg s
  else if s.params.capBits < s.arg.toNat then raiseFault (encode .baInit) .badSize s.arg s
  else finish (.ok { s with arr := Memory.zeroed, size := s.arg })

/-- BA_TEST (R76): RESULT is bit ARG; allowed while a filter is configured; BOUNDS for `pos >= SIZE`. -/
def execBaTest (s : State) : Host.Outcome State Fault Refusal :=
  if s.size ≤ s.arg then raiseFault (encode .baTest) .bounds s.arg s
  else finish (andThen (testBit s.arg.toNat s) fun b => .ok { s with result := boolWord b })

/-- BA_SET (R77): `v | mask`. -/
def execBaSet (s : State) : Host.Outcome State Fault Refusal := mutateBit (encode .baSet) (fun v m => v ||| m) s

/-- BA_CLEAR (R78): `v & ~mask`, the complement within 8 bits. -/
def execBaClear (s : State) : Host.Outcome State Fault Refusal := mutateBit (encode .baClear) (fun v m => v &&& ~~~m) s

/-- BA_FLIP (R79): `v ^ mask`. -/
def execBaFlip (s : State) : Host.Outcome State Fault Refusal := mutateBit (encode .baFlip) (fun v m => v ^^^ m) s

end Sys2Proof.Machine
end

