-- ==== Sys2Proof/Machine/Hash.lean ====
section
/-! DEFINITION. HASHU's hash function (spec/40_hash.md R59 to R66) and the HASH command (R70). -/

namespace Sys2Proof.Machine

/-- `rotl32(a, r)` (R12). -/
def rotl32 (a : Word) (r : Nat) : Word := (a <<< r) ||| (a >>> (32 - r))

/-- The hash constants (R10). -/
def hashC1 : Word := 0xcc9e2d51
/-- `C2` (R10). -/
def hashC2 : Word := 0x1b873593
/-- `R1`, the chunk rotation (R10). -/
def hashR1 : Nat := 15
/-- `R2`, the accumulator rotation (R10). -/
def hashR2 : Nat := 13
/-- `MMUL` (R10). -/
def hashMMul : Word := 5
/-- `NADD` (R10). -/
def hashNAdd : Word := 0xe6546b64
/-- `F1` (R10). -/
def hashF1 : Word := 0x85ebca6b
/-- `F2` (R10). -/
def hashF2 : Word := 0xc2b2ae35

/-- Chunk mixing, `Mix(k) = C2 *32 rotl32(C1 *32 k, R1)` (R60). -/
def mix (k : Word) : Word := hashC2 * rotl32 (hashC1 * k) hashR1

/-- The full-chunk round (R61): fold by exclusive-or, rotate, multiply and add. -/
def chunkRound (h k : Word) : Word := rotl32 (h ^^^ mix k) hashR2 * hashMMul + hashNAdd

/-- Step 2 of R65: the rounds of the `L div 4` full chunks, in order. -/
def bodyRounds (key : List Byte) (seed : Word) : Word :=
  (List.range (key.length / 4)).foldl (fun h j => chunkRound h (memReadLE key (4 * j) 4)) seed

/-- Step 3 of R65, the tail (R62): exclusive-or only, and nothing when `L mod 4 = 0`. -/
def tailRound (key : List Byte) (h : Word) : Word :=
  if key.length % 4 = 0 then h else h ^^^ mix (memReadLE key (4 * (key.length / 4)) (key.length % 4))

/-- `h ^ (h >> n)`, the logical shift of R64. -/
def xorShift (h : Word) (n : Nat) : Word := h ^^^ (h >>> n)

/-- The avalanche finalization `Fin` (R64). -/
def avalanche (h : Word) : Word := xorShift (xorShift (xorShift h 16 * hashF1) 13 * hashF2) 16

/-- `Hash32(key, seed)` (R65): the seed is the initial accumulator, `L` is folded in before the finalization (R63). -/
def hash32 (key : List Byte) (seed : Word) : Word :=
  avalanche (tailRound key (bodyRounds key seed) ^^^ BitVec.ofNat 32 key.length)

/-- HASH (R70): `RESULT <- Hash32(KEY[0 .. KEY_LEN-1], ARG)`; KEY_LEN_ERR when `KEY_LEN > KEY_MAX`. -/
def execHash (s : State) : Host.Outcome State Fault Refusal :=
  if s.params.keyMax < s.keyLen.toNat then raiseFault (encode .hash) .keyLenErr s.keyLen s
  else finish (.ok { s with result := hash32 (keyBytes s) s.arg })

end Sys2Proof.Machine
end

