-- ==== Sys2Proof/Machine/Bloom.lean ====
section
/-! DEFINITION. BFC, the bloom-filter controller, and its three commands (spec/42_bloom_filter.md R83 to R88). -/

namespace Sys2Proof.Machine

/-- Index derivation of round `i`, `Hash32(key, i) mod m` (R84); the remainder is "defined only for `b >= 1`" (R12). -/
def roundIndex (key : List Byte) (m : Word) (i : Nat) : Except Fault Nat :=
  if m = 0 then .error .moduloByZero else .ok ((hash32 key (BitVec.ofNat 32 i)).toNat % m.toNat)

/-- The insert loop of R87: `n` rounds from round `i` on, each setting the bit of its index. -/
def insertRounds (key : List Byte) : (n i : Nat) → State → Except Fault State
  | 0, _, s => .ok s
  | n + 1, i, s =>
    andThen (roundIndex key s.size i) fun x =>
      andThen (modifyBit (fun v m => v ||| m) x s) fun t => insertRounds key n (i + 1) t

/-- The query loop of R88: `n` rounds from round `i` on, false at the first clear bit. -/
def queryRounds (key : List Byte) (s : State) : (n i : Nat) → Except Fault Bool
  | 0, _ => .ok true
  | n + 1, i =>
    andThen (roundIndex key s.size i) fun x =>
      andThen (testBit x s) fun b => if b then queryRounds key s n (i + 1) else .ok false

/-- BF_CONFIG (R86): ALREADY_CONFIGURED; BAD_CONFIG for `m = 0` or `m > CAP_BITS`, then for `k = 0`; else all of ARR is
zeroed and SIZE, FILTER_K and CONFIGURED are written. -/
def execBfConfig (s : State) : Host.Outcome State Fault Refusal :=
  if s.configured then raiseFault (encode .bfConfig) .alreadyConfigured 0 s
  else if s.cfgM = 0 ∨ s.params.capBits < s.cfgM.toNat then raiseFault (encode .bfConfig) .badConfig s.cfgM s
  else if s.cfgK = 0 then raiseFault (encode .bfConfig) .badConfig s.cfgK s
  else finish (.ok { s with arr := Memory.zeroed, size := s.cfgM, filterK := s.cfgK, configured := true })

/-- BF_INSERT (R87): NOT_CONFIGURED, then KEY_LEN_ERR, then FILTER_K rounds with seeds `0 .. FILTER_K-1` (R85). -/
def execBfInsert (s : State) : Host.Outcome State Fault Refusal :=
  if s.configured = false then raiseFault (encode .bfInsert) .notConfigured 0 s
  else if s.params.keyMax < s.keyLen.toNat then raiseFault (encode .bfInsert) .keyLenErr s.keyLen s
  else finish (insertRounds (keyBytes s) s.filterK.toNat 0 s)

/-- BF_QUERY (R88): NOT_CONFIGURED, then KEY_LEN_ERR, then RESULT is 1 exactly when every round finds its bit set. -/
def execBfQuery (s : State) : Host.Outcome State Fault Refusal :=
  if s.configured = false then raiseFault (encode .bfQuery) .notConfigured 0 s
  else if s.params.keyMax < s.keyLen.toNat then raiseFault (encode .bfQuery) .keyLenErr s.keyLen s
  else
    finish (andThen (queryRounds (keyBytes s) s s.filterK.toNat 0) fun b => .ok { s with result := boolWord b })

end Sys2Proof.Machine
end

