-- ==== Sys2Proof/Machine/System.lean ====
section
/-! DEFINITION. The one system command, SOFT_RESET (spec/43_system.md R95). -/

namespace Sys2Proof.Machine

/-- SOFT_RESET (R95): "perform reset"; accepted whether BUSY, FAULT or neither, with no exception. A pending command is
discarded (R117). -/
def execSoftReset (s : State) : Host.Outcome State Fault Refusal := .next s.resetBlock

end Sys2Proof.Machine
end

