-- ==== Sys2Proof/Machine/Dispatch.lean ====
section
/-! DEFINITION. Which meaning each command has: the nine queued commands at their completion step (spec/30_encoding.md
R54), SOFT_RESET at the HOST write itself (R50, R95). -/

namespace Sys2Proof.Machine

def exec (i : Instr) (s : State) : Host.Outcome State Fault Refusal :=
  match i with
  | .hash => Sys2Proof.Machine.execHash s
  | .baInit => Sys2Proof.Machine.execBaInit s
  | .baTest => Sys2Proof.Machine.execBaTest s
  | .baSet => Sys2Proof.Machine.execBaSet s
  | .baClear => Sys2Proof.Machine.execBaClear s
  | .baFlip => Sys2Proof.Machine.execBaFlip s
  | .bfConfig => Sys2Proof.Machine.execBfConfig s
  | .bfInsert => Sys2Proof.Machine.execBfInsert s
  | .bfQuery => Sys2Proof.Machine.execBfQuery s
  | .softReset => Sys2Proof.Machine.execSoftReset s

end Sys2Proof.Machine
end

