-- ==== Sys2Proof/Machine/HostPort.lean ====
section
/-! DEFINITION. The two agents' moves: the HOST port (spec/20_memory.md R33 to R44, spec/70_reset_and_hazards.md R121,
R122), command issue (spec/30_encoding.md R50) and the CORE completion step (R54). -/

namespace Sys2Proof.Machine

/-- A register's value as a HOST read returns it: RESULT while BUSY = 1 is a free draw (R122). -/
def readReg (r : Reg) (s : State) : Word × State :=
  if r = .result ∧ s.busy then (Config.freeBusyRead s.draws, { s with draws := s.draws + 1 })
  else (regValue r s, s)

/-- A raw-window word as a HOST read returns it: while BUSY = 1 a free draw (R40, R122). -/
def readRaw (w : Nat) (s : State) : Word × State :=
  if s.busy then (Config.freeBusyRead s.draws, { s with draws := s.draws + 1 }) else (rawWordAt w s, s)

/-- The value a HOST read of a target returns. "No register or window read has a side effect" on BFCORE (R36): the only
thing that may change is the model's count of free draws. -/
def readTarget (t : Target) (s : State) : Word × State :=
  match t with
  | .reg r => readReg r s
  | .keyWord j => (keyWordAt j s, s)
  | .rawWord w => readRaw w s

/-- A HOST read at an offset (R33). -/
def hostRead (off : Word) (s : State) : State :=
  match decodeOffset s.params off with
  | .error e => s.record (.read off) (.busError e)
  | .ok t => (readTarget t s).2.record (.read off) (.data (readTarget t s).1)

/-- The registers HOST may write other than CMD (R20). -/
def writeOperand (r : Reg) (d : Word) (s : State) : State :=
  match r with
  | .arg => { s with arg := d }
  | .keyLen => { s with keyLen := d }
  | .cfgM => { s with cfgM := d }
  | .cfgK => { s with cfgK := d }
  | .cmd | .status | .result | .size | .filterK | .errArg | .capBits | .capKey => s

/-- ARG, KEY_LEN, CFG_M and CFG_K are read-write (R17, R20); a write to any other register but CMD is ignored (R36). -/
def isOperand : Reg → Bool
  | .arg | .keyLen | .cfgM | .cfgK => true
  | .cmd | .status | .result | .size | .filterK | .errArg | .capBits | .capKey => false

/-- Key-window write: `KEY[4j+t] <- d[8t+7 : 8t]` for `t = 0, 1, 2, 3` (R38). -/
def writeKeyWord (j : Nat) (d : Word) (s : State) : State :=
  { s with
    key := (((s.key.write (4 * j) (leByte d 0)).write (4 * j + 1) (leByte d 1)).write (4 * j + 2) (leByte d 2)).write
      (4 * j + 3) (leByte d 3) }

/-- A write to CMD of a word other than SOFT_RESET (R50): dropped while BUSY (R121), ignored while FAULT (R102), else
accepted undecoded. -/
def issue (w : Word) (s : State) : State :=
  if s.busy then s.noteOverrun else if s.fault then s else { s with pend := some w }

/-- A HOST write of anything but SOFT_RESET (R36, R50, R121). Writes to read-only registers and to the raw window are
ignored and never set OVR. -/
def writeTarget (t : Target) (d : Word) (s : State) : State :=
  match t with
  | .reg r =>
    if r = .cmd then issue d s
    else if isOperand r then (if s.busy then s.noteOverrun else writeOperand r d s)
    else s
  | .keyWord j => if s.busy then s.noteOverrun else writeKeyWord j d s
  | .rawWord _ => s

/-- A HOST write at an offset (R33). The word 0x0000_00FF at CMD is SOFT_RESET, taken at the write itself whatever BUSY
and FAULT are (R50, R95). -/
def hostWrite (off d : Word) (s : State) : Host.Outcome State Fault Refusal :=
  match decodeOffset s.params off with
  | .error e => .next (s.record (.write off d) (.busError e))
  | .ok t =>
    if t = .reg .cmd ∧ d = encode .softReset then exec .softReset (s.record (.write off d) .done)
    else .next ((writeTarget t d s).record (.write off d) .done)

/-- What one event from the outside does: an access of HOST, or the hardware reset input (R115). -/
def outsideEvent (e : Event) (s : State) : Host.Outcome State Fault Refusal :=
  match e with
  | .access (.read off) => .next (hostRead off s)
  | .access (.write off d) => hostWrite off d s
  | .hwReset => .next s.resetBlock

/-- The completion step of the pending word `w` (R54): an illegal word raises `Fault(ILLEGAL_CMD, w)`. -/
def completePending (w : Word) (s : State) : Host.Outcome State Fault Refusal :=
  match decodePending w with
  | .ok i => exec i s
  | .error _ => raiseFault w .illegalCmd w s

/-- Whether the next input arrives while the pending command has not completed. -/
def nextArrivesEarly : List Input → Bool
  | [] => false
  | x :: _ => x.beforeCompletion

/-- The next input happens; with none the block "is idle and holds its state" (R114). -/
def nextInput (s : State) : Host.Outcome State Fault Refusal :=
  match s.inputs with
  | [] => .next s
  | x :: rest => outsideEvent x.event { s with inputs := rest }

end Sys2Proof.Machine
end

