-- ==== Sys2Proof/Machine/Step.lean ====
section
/-! DEFINITION. One step of the interleaving of HOST accesses and CORE completion steps (spec/20_memory.md R46), and the
placing of a command where the next step runs it. -/

namespace Sys2Proof.Machine

/-- One step. When a command is pending and the next input does not arrive before its completion, CORE takes its one
enabled step, the completion (R16). Otherwise the next input happens. With neither the block "is idle and holds its
state" (R114). -/
def step (s : State) : Host.Outcome State Fault Refusal :=
  match s.pend with
  | some w => if nextArrivesEarly s.inputs then nextInput s else completePending w s
  | none => nextInput s

/-- `s` with the command word `w` where the next step runs it (DESIGN CHOICE, notes/assumptions/4.md). SOFT_RESET runs at the HOST write
itself (R50), so it becomes the next HOST access. Every other word is put in PEND as an accepted command, and the next
input, if there is one, arrives after its completion. No command has another length than 32 bits (R56): of such a word
nothing is placed. -/
def State.withFetchWord (s : State) (nbits w : Nat) : State :=
  let word : Word := BitVec.ofNat 32 w
  if nbits = 32 then
    if word = encode .softReset then
      { s with inputs := { beforeCompletion := true, event := .access (.write 0 word) } :: s.inputs }
    else
      { s with
        pend := some word
        inputs :=
          match s.inputs with
          | [] => []
          | x :: rest => { x with beforeCompletion := false } :: rest }
  else s

end Sys2Proof.Machine
end

