-- ==== Sys2Proof/Machine/HashUnit.lean ====
section
/-! DEFINITION. HASHU as the rotation state machine of spec/40_hash.md R69. It is an informative decomposition: its state
is hidden (spec/10_state.md R30) and no part of `State`; that it computes `hash32` is a claim (DEDUCED,
notes/assumptions/12.md). -/

namespace Sys2Proof.Machine

/-- The phases of R69. -/
inductive HashPhase where
  | body | tail | fold | fin1 | fin2 | fin3 | fin4 | fin5 | done
deriving DecidableEq, Repr

/-- The state `(phase, h, j)` of R69: the accumulator and the chunk counter of R30. -/
structure HashUnit where
  phase : HashPhase
  h : Word
  j : Nat
deriving DecidableEq, Repr

/-- The start state `(BODY, seed, 0)`. -/
def hashUnitStart (seed : Word) : HashUnit := { phase := .body, h := seed, j := 0 }

/-- One transition of R69 for the key `key`, whose chunks and tail are read by byte index. -/
def hashUnitStep (key : List Byte) (u : HashUnit) : HashUnit :=
  match u.phase with
  | .body =>
    if u.j < key.length / 4 then
      { u with h := rotl32 (u.h ^^^ mix (memReadLE key (4 * u.j) 4)) 13 * 5 + 0xe6546b64, j := u.j + 1 }
    else { u with phase := .tail }
  | .tail =>
    { u with
      phase := .fold
      h :=
        if key.length % 4 ≠ 0 then u.h ^^^ mix (memReadLE key (4 * (key.length / 4)) (key.length % 4)) else u.h }
  | .fold => { u with phase := .fin1, h := u.h ^^^ BitVec.ofNat 32 key.length }
  | .fin1 => { u with phase := .fin2, h := u.h ^^^ (u.h >>> 16) }
  | .fin2 => { u with phase := .fin3, h := u.h * 0x85ebca6b }
  | .fin3 => { u with phase := .fin4, h := u.h ^^^ (u.h >>> 13) }
  | .fin4 => { u with phase := .fin5, h := u.h * 0xc2b2ae35 }
  | .fin5 => { u with phase := .done, h := u.h ^^^ (u.h >>> 16) }
  | .done => u

/-- `n` transitions. -/
def hashUnitRun (key : List Byte) : Nat → HashUnit → HashUnit
  | 0, u => u
  | n + 1, u => hashUnitRun key n (hashUnitStep key u)

end Sys2Proof.Machine
end

