-- ==== Sys2Proof/Machine/Sequencer.lean ====
section
/-! DEFINITION. BFC's sequencer for BF_INSERT and BF_QUERY (spec/42_bloom_filter.md R89). It is an informative
decomposition: its state is hidden (spec/10_state.md R30) and no part of `State`; that it has the commands' effects is a
claim (DEDUCED, notes/assumptions/12.md). -/

namespace Sys2Proof.Machine

/-- The sequencer's states (R89). -/
inductive SeqPhase where
  | idle
  /-- HASHU runs with seed `i`. -/
  | hash (i : Nat)
  /-- `x <- h mod SIZE`. -/
  | index (i : Nat) (h : Word)
  /-- Read-modify-write of `ARR[x div 8]` for insert, test for query. -/
  | bit (i x : Nat)
  | done
deriving DecidableEq, Repr

/-- Which command the sequencer runs. -/
inductive SeqCommand where
  | insert | query
deriving DecidableEq, Repr

/-- The sequencer, the storage it works on, and the answer a query has so far. -/
structure Sequencer where
  phase : SeqPhase
  arr : Memory
  answer : Bool
deriving DecidableEq, Repr

/-- Where BIT(i) goes: "to `HASH(i+1)` when `i + 1 < k`, else to `DONE`". -/
def seqNextRound (k i : Nat) : SeqPhase := if i + 1 < k then .hash (i + 1) else .done

/-- One transition (R89), HASH(i), INDEX(i) and BIT(i) being one each (DESIGN CHOICE, notes/assumptions/18.md), for the
command `c` on the key `key`, with `m = SIZE` and `k = FILTER_K`. -/
def sequencerStep (c : SeqCommand) (key : List Byte) (m : Word) (k : Nat) (q : Sequencer) : Sequencer :=
  match q.phase with
  | .idle => { q with phase := .hash 0 }
  | .hash i => { q with phase := .index i (hash32 key (BitVec.ofNat 32 i)) }
  | .index i h => { q with phase := .bit i (h.toNat % m.toNat) }
  | .bit i x =>
    match c with
    | .insert =>
      { q with phase := seqNextRound k i, arr := q.arr.write (byteOf x) (q.arr.read (byteOf x) ||| maskOf x) }
    | .query =>
      if (q.arr.read (byteOf x)).getLsbD (x % 8) then { q with phase := seqNextRound k i }
      else { q with phase := .done, answer := false }
  | .done => q

/-- `n` transitions. -/
def sequencerRun (c : SeqCommand) (key : List Byte) (m : Word) (k : Nat) : Nat → Sequencer → Sequencer
  | 0, q => q
  | n + 1, q => sequencerRun c key m k n (sequencerStep c key m k q)

/-- The sequencer at IDLE over the storage of `s`. -/
def sequencerStart (s : State) : Sequencer := { phase := .idle, arr := s.arr, answer := true }

end Sys2Proof.Machine
end

