-- ==== Sys2Proof/Machine/Binary64.lean ====
section
/-! DEFINITION. IEEE 754 binary64, the numbers a host sizes a filter in (spec/42_bloom_filter.md R90): data and the
operations the two formulas use. The spec names the format; its rounding is to nearest, ties to even (PRESUMED,
notes/assumptions/17.md). No part of the block. -/

namespace Sys2Proof.Machine

/-- A binary64 datum. -/
inductive Binary64 where
  /-- Not a number. -/
  | nan
  /-- An infinity, negative if `neg`. -/
  | inf (neg : Bool)
  /-- `± sig * 2 ^ exp`, negative if `neg`; the zeros have `sig = 0`. -/
  | finite (neg : Bool) (sig : Nat) (exp : Int)
deriving DecidableEq, Repr

/-- The exponent of the least significant bit of a subnormal. -/
def binary64MinExp : Int := -1074

/-- The largest exponent of a 53-bit significand. -/
def binary64MaxExp : Int := 971

/-- The representable data: 53 bits of significand, and fewer only at the least exponent. -/
def Binary64.representable : Binary64 → Bool
  | .nan => true
  | .inf _ => true
  | .finite _ sig exp =>
    decide (sig < 2 ^ 53) && decide (binary64MinExp ≤ exp) && decide (exp ≤ binary64MaxExp) &&
      (decide (2 ^ 52 ≤ sig) || decide (exp = binary64MinExp))

/-- `num / den` rounded to an integer: to nearest, ties to even. -/
def roundHalfEven (num den : Nat) : Nat :=
  if den < 2 * (num % den) ∨ den = 2 * (num % den) ∧ num / den % 2 = 1 then num / den + 1 else num / den

/-- The exponent of the leading bit of `num / den`, for positive `num` and `den`. -/
def leadingExp (num den : Nat) : Int :=
  let e : Int := (num.log2 : Int) - (den.log2 : Int)
  if num * 2 ^ (-e).toNat < den * 2 ^ e.toNat then e - 1 else e

/-- A rounded significand of at most `2 ^ 53` at its exponent: a carry out of it moves the exponent, and beyond the
largest exponent the result is infinite. -/
def packSig (neg : Bool) (sig : Nat) (exp : Int) : Binary64 :=
  if sig = 2 ^ 53 then (if exp + 1 ≤ binary64MaxExp then .finite neg (2 ^ 52) (exp + 1) else .inf neg)
  else if exp ≤ binary64MaxExp then .finite neg sig exp
  else .inf neg

/-- The exponent at which `num / den` is rounded: 53 bits of significand, or the least exponent. -/
def roundingExp (num den : Nat) : Int := max (leadingExp num den - 52) binary64MinExp

/-- The exact value `± num / den` rounded to binary64. -/
def roundBinary64 (neg : Bool) (num den : Nat) : Binary64 :=
  if num = 0 then .finite neg 0 binary64MinExp
  else
    let e := roundingExp num den
    packSig neg (roundHalfEven (num * 2 ^ (-e).toNat) (den * 2 ^ e.toNat)) e

/-- An integer as a binary64 number. -/
def Binary64.ofInt (i : Int) : Binary64 := roundBinary64 (i < 0) i.natAbs 1

def Binary64.neg : Binary64 → Binary64
  | .nan => .nan
  | .inf s => .inf !s
  | .finite s a e => .finite (!s) a e

def Binary64.mul : Binary64 → Binary64 → Binary64
  | .nan, _ | _, .nan => .nan
  | .inf s, .inf t => .inf (s ^^ t)
  | .inf s, .finite t b _ => if b = 0 then .nan else .inf (s ^^ t)
  | .finite s a _, .inf t => if a = 0 then .nan else .inf (s ^^ t)
  | .finite s a e, .finite t b f =>
    roundBinary64 (s ^^ t) (a * b * 2 ^ (e + f).toNat) (2 ^ (-(e + f)).toNat)

def Binary64.div : Binary64 → Binary64 → Binary64
  | .nan, _ | _, .nan => .nan
  | .inf _, .inf _ => .nan
  | .inf s, .finite t _ _ => .inf (s ^^ t)
  | .finite s _ _, .inf t => .finite (s ^^ t) 0 binary64MinExp
  | .finite s a e, .finite t b f =>
    if b = 0 then (if a = 0 then .nan else .inf (s ^^ t))
    else roundBinary64 (s ^^ t) (a * 2 ^ (e - f).toNat) (b * 2 ^ (-(e - f)).toNat)

/-- `sig` with its sign. -/
def signedSig (neg : Bool) (sig : Nat) : Int := if neg then -(sig : Int) else sig

/-- `x < y`; false where either is not a number. -/
def Binary64.lt : Binary64 → Binary64 → Bool
  | .nan, _ | _, .nan => false
  | .inf s, .inf t => s && !t
  | .inf s, .finite _ _ _ => s
  | .finite _ _ _, .inf t => !t
  | .finite s a e, .finite t b f =>
    if a = 0 ∨ b = 0 then signedSig s a < signedSig t b
    else signedSig s (a * 2 ^ (e - f).toNat) < signedSig t (b * 2 ^ (f - e).toNat)

/-- The least integer not below a finite number; an infinity or a NaN has none. -/
def Binary64.ceil : Binary64 → Option Int
  | .nan => none
  | .inf _ => none
  | .finite s a e => some (-(-signedSig s (a * 2 ^ e.toNat) / (2 ^ (-e).toNat : Int)))

end Sys2Proof.Machine
end

