-- ==== Sys2Proof/Machine/Sizing.lean ====
section
/-! DEFINITION. The host-side sizing of a filter (spec/42_bloom_filter.md R90, R91): a reference function of the host, no
part of the block (spec/00_scope.md R6). The host's arithmetic and its logarithm are arguments
(spec/93_implementation_defined.md P8; DESIGN CHOICE, notes/assumptions/10.md). -/

namespace Sys2Proof.Machine

/-- The arithmetic a host sizes in, with its natural logarithm. -/
structure HostArith (K : Type) where
  ofInt : Int → K
  neg : K → K
  mul : K → K → K
  div : K → K → K
  ln : K → K
  lt : K → K → Bool
  /-- The least integer not below a number, where there is one. -/
  ceil : K → Option Int

/-- Exact arithmetic over an ordered field: with the real numbers, "the real-valued formulas" of R91. -/
def exactArith {K : Type} [Field K] [LinearOrder K] [FloorRing K] (ln : K → K) : HostArith K where
  ofInt i := i
  neg x := -x
  mul x y := x * y
  div x y := x / y
  ln := ln
  lt x y := decide (x < y)
  ceil x := some ⌈x⌉

/-- "A host model evaluates the formulas in IEEE 754 binary64 with `ln` the host library's" (R90). -/
def binary64Arith (ln : Binary64 → Binary64) : HostArith Binary64 where
  ofInt := Binary64.ofInt
  neg := Binary64.neg
  mul := Binary64.mul
  div := Binary64.div
  ln := ln
  lt := Binary64.lt
  ceil := Binary64.ceil

/-- `m = ceil( -(n * ln(p)) / (ln(2))^2 )` (R90). -/
def sizeM {K : Type} (A : HostArith K) (n : Nat) (p : K) : Option Int :=
  A.ceil (A.div (A.neg (A.mul (A.ofInt n) (A.ln p))) (A.mul (A.ln (A.ofInt 2)) (A.ln (A.ofInt 2))))

/-- `k = ceil( (m / n) * ln(2) )`, with real division of the integers (R90). -/
def sizeK {K : Type} (A : HostArith K) (m : Int) (n : Nat) : Option Int :=
  A.ceil (A.mul (A.div (A.ofInt m) (A.ofInt n)) (A.ln (A.ofInt 2)))

/-- The valid domain, `n >= 1` and `0 < p < 1`; a `p` that is not a number compares with nothing, so it is outside
(R91). -/
def sizingValid {K : Type} (A : HostArith K) (n : Nat) (p : K) : Bool :=
  decide (1 ≤ n) && A.lt (A.ofInt 0) p && A.lt p (A.ofInt 1)

/-- What the host loads into CFG_M and CFG_K: nothing outside the valid domain, where it "does not configure" (R91,
U1), and nothing where a formula has no integer value. -/
def hostSizing {K : Type} (A : HostArith K) (n : Nat) (p : K) : Option (Int × Int) :=
  if sizingValid A n p then
    match sizeM A n p with
    | none => none
    | some m => (sizeK A m n).map fun k => (m, k)
  else none

end Sys2Proof.Machine
end

