-- ==== Sys2Proof/Safety.lean ====
section
/-! DEFINITION. The terms claims use: the invariant of the reachable states, runs without a reset, bus errors and the
end of a run. -/

namespace Sys2Proof.Machine

/-- What holds of every state a run reaches from reset, whatever the outside does. -/
structure Invariant (s : State) : Prop where
  /-- The parameters are legal (R8). -/
  params_legal : s.params.legal = true
  /-- KEY is canonical and lies inside the key buffer (R27). -/
  key_wf : s.key.wf
  key_inside : ∀ c ∈ s.key, c.1 < s.params.keyMax
  /-- ARR is canonical and lies inside the storage (R28). -/
  arr_wf : s.arr.wf
  arr_inside : ∀ c ∈ s.arr, c.1 < s.params.arrayBytes
  /-- "`SIZE <= CAP_BITS` always" (R22). -/
  size_le_cap : s.size.toNat ≤ s.params.capBits
  /-- Padding bits are 0 (R29). -/
  padding_zero : ∀ pos, s.size.toNat ≤ pos → s.bit pos = false
  /-- "`CONFIGURED = 1` implies `SIZE >= 1` and `FILTER_K >= 1`" (R22). -/
  configured_sized : s.configured = true → s.size ≠ 0 ∧ s.filterK ≠ 0
  /-- "`CONFIGURED = 0` implies `FILTER_K = 0`" (R22). -/
  unconfigured_k : s.configured = false → s.filterK = 0
  /-- ERRCODE is NONE exactly when FAULT = 0 (R99). -/
  code_iff_fault : s.errCode = .noFault ↔ s.fault = false
  /-- ERR_OP and ERR_ARG are 0 while FAULT = 0 (R19, R23). -/
  no_fault_clear : s.fault = false → s.errOp = 0 ∧ s.errArg = 0
  /-- No command is pending while FAULT = 1 (R102, R106). -/
  fault_idle : s.fault = true → s.pend = none
  /-- SOFT_RESET is never queued (R50). -/
  pend_not_reset : s.pend ≠ some (encode .softReset)

/-- What R32 lists, for the state after a reset of a machine with parameters `p`. -/
def hasListedResetValues (p : Params) (t : State) : Prop :=
  t.pend = none ∧ t.status = 0 ∧ t.fault = false ∧ t.configured = false ∧ t.ovr = false ∧ t.errCode = .noFault ∧
    t.errOp = 0 ∧ t.arg = 0 ∧ t.result = 0 ∧ t.keyLen = 0 ∧ t.cfgM = 0 ∧ t.cfgK = 0 ∧ t.size = 0 ∧ t.filterK = 0 ∧
    t.errArg = 0 ∧ regValue .capBits t = BitVec.ofNat 32 (8 * p.arrayBytes) ∧
    regValue .capKey t = BitVec.ofNat 32 p.keyMax ∧ (∀ a, t.key.read a = 0) ∧ ∀ a, t.arr.read a = 0

/-- The outside moves in `s`: no command is pending, or the next input arrives before its completion (R46). -/
def outsideMoves (s : State) : Bool := !s.busy || nextArrivesEarly s.inputs

/-- An event that resets the block: the hardware reset input, or the write of SOFT_RESET to CMD (R115). -/
def isResetEvent : Event → Bool
  | .hwReset => true
  | .access (.write off d) => off == 0 && d == encode .softReset
  | .access (.read _) => false

/-- The step from `s` is a reset. -/
def takesReset (s : State) : Bool :=
  match s.inputs with
  | [] => false
  | x :: _ => outsideMoves s && isResetEvent x.event

/-- The step from `s` is the completion step of BF_INSERT. -/
def completesInsert (s : State) : Bool := s.pend == some (encode .bfInsert) && !outsideMoves s

/-- `t` is reached from `s` by steps, none of them from a state that `bad` holds of. With `takesReset` for `bad` these
are the runs "before the next reset" (R93). -/
inductive RunsAvoiding (bad : State → Bool) : State → State → Prop where
  | refl (s : State) : RunsAvoiding bad s s
  | more {s t u : State} : RunsAvoiding bad s t → bad t = false → step t = .next u → RunsAvoiding bad s u

/-- No access so far was a bus error: "a claim about a host program takes "no bus error" as a premise" (R37). -/
def noBusError (s : State) : Bool :=
  s.log.all (fun r => match r.response with
    | .busError _ => false
    | _ => true)

/-- The last access was a STATUS read that returned BUSY = 0 (R126). -/
def lastReadIdle (s : State) : Bool :=
  match s.log with
  | { access := .read off, response := .data v } :: _ => off == 4 && !v.getLsbD 0
  | _ => false

/-- The event is a HOST access. -/
def isAccess : Event → Bool
  | .access _ => true
  | .hwReset => false

/-- The step from `s` makes the last HOST access of the run: "a host program's run ends after its last HOST access"
(R126), whatever the platform does later. -/
def makesLastAccess (s : State) : Bool :=
  match s.inputs with
  | [] => false
  | x :: rest => outsideMoves s && isAccess x.event && rest.all (fun y => !isAccess y.event)

/-- The state right after the last access is the run's final state: no command is pending, no access was a bus error, and
the last one was a STATUS read that returned BUSY = 0 (R126). The log is the run's own. -/
def isFinal (t : State) : Bool := t.pend == none && noBusError t && lastReadIdle t

/-- Run up to `n` steps, to the state right after the last access, and answer it where it is final. -/
def runToEnd : Nat → State → Option State
  | 0, _ => none
  | n + 1, s =>
    match step s with
    | .next t => if makesLastAccess s then (if isFinal t then some t else none) else runToEnd n t
    | .fault _ => none
    | .refused _ => none

/-- The final state of the run of the accesses queued in `s`, with the values read in its log (R126); none for "a run whose
last command is still pending, or that took a bus error". Each queued input is one step, each command it issues one more,
and a command may be pending at the start. -/
def finalState (s : State) : Option State := runToEnd (2 * s.inputs.length + 1) { s with log := [] }

end Sys2Proof.Machine
end

