-- ==== Sys2Proof/Certificates/Slice0/Obligations.lean ====
section
/-! DEFINITION. The statements about BFCORE that the provers settle. Each docstring names the rules of spec/ it rests
on. A statement about the next state writes it as the old state with the fields that may change, so every field it does
not name is unchanged. -/

open Sys2Proof Sys2Proof.Machine

/-! ### Decoding and the completion step -/

/-- R53: the ten words, written out from the opcode map, decode to their commands. -/
def Obligations.OpcodeMapWordsDecode : Prop :=
  decode 0x00000001 = .ok .hash ∧ decode 0x00000010 = .ok .baInit ∧ decode 0x00000011 = .ok .baTest ∧
    decode 0x00000012 = .ok .baSet ∧ decode 0x00000013 = .ok .baClear ∧ decode 0x00000014 = .ok .baFlip ∧
    decode 0x00000020 = .ok .bfConfig ∧ decode 0x00000021 = .ok .bfInsert ∧ decode 0x00000022 = .ok .bfQuery ∧
    decode 0x000000FF = .ok .softReset

/-- R53 to R55: over all 2^32 words, the decoder accepts exactly the encoded commands, each as itself; at a completion
it accepts exactly the nine that are queued. -/
def Obligations.DecodeAcceptsExactlyTheEncodings : Prop :=
  (∀ (w : Word) (i : Instr), decode w = .ok i ↔ w = encode i) ∧
    ∀ (w : Word) (i : Instr), decodePending w = .ok i ↔ w = encode i ∧ i ≠ .softReset

/-- R54, R16: a pending command that decodes to `i` is run by the step, unless the next input comes first. -/
def Obligations.StepRunsThePendingCommand : Prop :=
  ∀ (s : State) (w : Word) (i : Instr), s.pend = some w → nextArrivesEarly s.inputs = false →
    decodePending w = .ok i → step s = exec i s

/-- R50, R95: the write of 0x0000_00FF to CMD runs SOFT_RESET at the write itself, whatever BUSY and FAULT are. -/
def Obligations.StepRunsSoftResetAtTheWrite : Prop :=
  ∀ (s : State) (early : Bool) (rest : List Input),
    s.inputs = { beforeCompletion := early, event := .access (.write 0 0x000000FF) } :: rest →
      (s.busy = true → early = true) →
        step s = exec .softReset
          { s with inputs := rest, log := { access := .write 0 0x000000FF, response := .done } :: s.log }

/-- R46, R114: where CORE has no step to take or the next input comes first, that input happens; with nothing pending
and no input the state is held. -/
def Obligations.StepServesTheNextInputOrIdles : Prop :=
  (∀ (s : State) (x : Input) (rest : List Input), s.inputs = x :: rest → outsideMoves s = true →
    step s = outsideEvent x.event { s with inputs := rest }) ∧
    ∀ s : State, s.pend = none → s.inputs = [] → step s = .next s

/-- R54, R55, R97 with R100 and R101: completing a word other than the nine queued commands' faults ILLEGAL_CMD and records
the word. The one legal word among them, a pending 0x0000_00FF, which no run reaches, is rejected by inference from R54's
set of opcodes (DEDUCED, notes/assumptions/11.md). -/
def Obligations.IllegalWordFaultsWhenCompleted : Prop :=
  ∀ (s : State) (w : Word), s.pend = some w → nextArrivesEarly s.inputs = false →
    w ∉ [0x01#32, 0x10#32, 0x11#32, 0x12#32, 0x13#32, 0x14#32, 0x20#32, 0x21#32, 0x22#32] →
      step s = .next
        { s with
          pend := none, fault := true, errCode := .illegalCmd, errOp := w.extractLsb' 0 8, errArg := w }

/-- R50: the order in which a write to CMD is handled; a word that is accepted is not decoded. That the HOST side's log is
kept over the reset is the model's choice (notes/assumptions/7.md). -/
def Obligations.CommandIssueOrder : Prop :=
  ∀ (s : State) (w : Word),
    hostWrite 0 w s = .next
      (if w = 0x000000FF then
        State.resetBlock { s with log := { access := .write 0 w, response := .done } :: s.log }
      else if s.pend ≠ none then { s with ovr := true, log := { access := .write 0 w, response := .done } :: s.log }
      else if s.fault then { s with log := { access := .write 0 w, response := .done } :: s.log }
      else { s with pend := some w, log := { access := .write 0 w, response := .done } :: s.log })

/-! ### Reset -/

/-- R32, R115: SOFT_RESET and the hardware reset input, from any state at all, give exactly the listed state, and so
does `State.reset`; the HOST side is not the block's and stays. -/
def Obligations.ResetGivesTheListedState : Prop :=
  (∀ s : State, ∃ t, exec .softReset s = .next t ∧ outsideEvent .hwReset s = .next t ∧
    hasListedResetValues s.params t ∧
    t.params = s.params ∧ t.inputs = s.inputs ∧ t.log = s.log ∧ t.draws = s.draws) ∧
    hasListedResetValues State.reset.params State.reset

/-- R117: a reset leaves nothing of the command that was pending, nor of anything else the block held. -/
def Obligations.ResetForgetsTheBlock : Prop :=
  ∀ s u : State, s.params = u.params → s.inputs = u.inputs → s.log = u.log → s.draws = u.draws →
    exec .softReset s = exec .softReset u ∧ outsideEvent .hwReset s = outsideEvent .hwReset u

/-! ### The host port -/

/-- R35: what an aligned offset reaches, over all offsets and all legal parameters; no range of the table is empty. -/
def Obligations.OffsetTableIsTotal : Prop :=
  ∀ (p : Params) (a : Word), p.legal = true → a.toNat % 4 = 0 →
    (a.toNat ≤ 0x2C → ∃ r, decodeOffset p a = .ok (.reg r) ∧ regOffset r = a.toNat) ∧
    (0x30 ≤ a.toNat → a.toNat ≤ 0xFFC → decodeOffset p a = .error .reserved) ∧
    (0x1000 ≤ a.toNat → a.toNat ≤ 0x1000 + p.keyMax - 4 →
      decodeOffset p a = .ok (.keyWord ((a.toNat - 0x1000) / 4))) ∧
    (0x1000 + p.keyMax ≤ a.toNat → a.toNat ≤ 0x7FFFFFFC → decodeOffset p a = .error .reserved) ∧
    (0x80000000 ≤ a.toNat → a.toNat ≤ 0x80000000 + p.arrayBytes - 4 →
      decodeOffset p a = .ok (.rawWord ((a.toNat - 0x80000000) / 4))) ∧
    (0x80000000 + p.arrayBytes ≤ a.toNat → decodeOffset p a = .error .reserved) ∧
    4 ≤ p.keyMax ∧ 0x1000 + p.keyMax ≤ 0x7FFFFFFC ∧ 4 ≤ p.arrayBytes ∧ 0x80000000 + p.arrayBytes ≤ 0xFFFFFFFC

/-- R34, R37: a misaligned access of either kind returns a bus error and changes no state of the block. -/
def Obligations.MisalignedAccessIsNotPerformed : Prop :=
  ∀ (s : State) (off d : Word), off.extractLsb' 0 2 ≠ 0 →
    outsideEvent (.access (.read off)) s =
        .next { s with log := { access := .read off, response := .busError .misaligned } :: s.log } ∧
      outsideEvent (.access (.write off d)) s =
        .next { s with log := { access := .write off d, response := .busError .misaligned } :: s.log }

/-- R35, R37: so does an access to a reserved offset. -/
def Obligations.ReservedOffsetIsABusError : Prop :=
  ∀ (s : State) (off d : Word), s.params.legal = true → off.toNat % 4 = 0 →
    (0x30 ≤ off.toNat ∧ off.toNat < 0x1000 ∨
      0x1000 + s.params.keyMax ≤ off.toNat ∧ off.toNat < 0x80000000 ∨
      0x80000000 + s.params.arrayBytes ≤ off.toNat) →
    outsideEvent (.access (.read off)) s =
        .next { s with log := { access := .read off, response := .busError .reserved } :: s.log } ∧
      outsideEvent (.access (.write off d)) s =
        .next { s with log := { access := .write off d, response := .busError .reserved } :: s.log }

/-- R17, R18, R23: what a read of each register returns; RESULT while BUSY = 0. -/
def Obligations.RegisterReadsReturnTheirValues : Prop :=
  ∀ s : State,
    (∀ (off v : Word), (off, v) ∈ [(0x000#32, 0#32), (0x004#32, s.status), (0x008#32, s.arg), (0x010#32, s.keyLen),
        (0x014#32, s.cfgM), (0x018#32, s.cfgK), (0x01C#32, s.size), (0x020#32, s.filterK), (0x024#32, s.errArg),
        (0x028#32, BitVec.ofNat 32 (8 * s.params.arrayBytes)), (0x02C#32, BitVec.ofNat 32 s.params.keyMax)] →
      hostRead off s = { s with log := { access := .read off, response := .data v } :: s.log }) ∧
    (s.pend = none →
      hostRead 0x00C s = { s with log := { access := .read 0x00C, response := .data s.result } :: s.log })

/-- R19, R24, R99: where each field stands in STATUS, the code of each fault, and that reserved bits read 0. -/
def Obligations.StatusFieldLayout : Prop :=
  ∀ s : State,
    (s.status.getLsbD 0 = true ↔ s.pend ≠ none) ∧ s.status.getLsbD 1 = s.fault ∧
    s.status.getLsbD 2 = s.configured ∧ s.status.getLsbD 3 = s.ovr ∧ s.status.extractLsb' 4 4 = 0 ∧
    s.status.extractLsb' 12 4 = 0 ∧ s.status.extractLsb' 16 8 = s.errOp ∧ s.status.extractLsb' 24 8 = 0 ∧
    ∀ (c : ErrCode) (n : Nat),
      (c, n) ∈ [(ErrCode.noFault, 0x0), (.illegalCmd, 0x1), (.bounds, 0x2), (.badSize, 0x3), (.badConfig, 0x4),
        (.notConfigured, 0x5), (.alreadyConfigured, 0x6), (.owned, 0x7), (.keyLenErr, 0x8)] →
      s.errCode = c → (s.status.extractLsb' 8 4).toNat = n

/-- R36, R44: a read, of whatever offset, changes nothing of the block. -/
def Obligations.ReadsHaveNoSideEffect : Prop :=
  ∀ (s : State) (off : Word), ∃ (r : Response) (n : Nat),
    outsideEvent (.access (.read off)) s =
      .next { s with log := { access := .read off, response := r } :: s.log, draws := n }

/-- R40, R122: while a command is pending, a read of RESULT or of the raw window returns the next free draw; the
statement holds whatever the draws are. The count of draws is the model's (notes/assumptions/3.md). -/
def Obligations.ReadsWhileBusyAreFreeDraws : Prop :=
  ∀ (s : State) (off : Word), s.params.legal = true → s.pend ≠ none →
    (off = 0x00C ∨
      off.toNat % 4 = 0 ∧ 0x80000000 ≤ off.toNat ∧ off.toNat < 0x80000000 + s.params.arrayBytes) →
    hostRead off s =
      { s with
        draws := s.draws + 1
        log := { access := .read off, response := .data (Config.freeBusyRead s.draws) } :: s.log }

/-- R20: with nothing pending, a write to an operand register stores all 32 bits, in the faulted state too (R102). -/
def Obligations.OperandWritesAreStored : Prop :=
  ∀ (s : State) (d : Word), s.pend = none →
    hostWrite 0x008 d s = .next { s with arg := d, log := { access := .write 0x008 d, response := .done } :: s.log } ∧
    hostWrite 0x010 d s =
      .next { s with keyLen := d, log := { access := .write 0x010 d, response := .done } :: s.log } ∧
    hostWrite 0x014 d s = .next { s with cfgM := d, log := { access := .write 0x014 d, response := .done } :: s.log } ∧
    hostWrite 0x018 d s = .next { s with cfgK := d, log := { access := .write 0x018 d, response := .done } :: s.log }

/-- R121: while a command is pending, a write to CMD (but SOFT_RESET), to an operand register or to the key window is
dropped and sets OVR; nothing else changes. -/
def Obligations.WritesWhileBusyAreDropped : Prop :=
  ∀ (s : State) (off d : Word), s.params.legal = true → s.pend ≠ none →
    (off = 0x000 ∧ d ≠ 0x000000FF ∨ off = 0x008 ∨ off = 0x010 ∨ off = 0x014 ∨ off = 0x018 ∨
      off.toNat % 4 = 0 ∧ 0x1000 ≤ off.toNat ∧ off.toNat < 0x1000 + s.params.keyMax) →
    hostWrite off d s =
      .next { s with ovr := true, log := { access := .write off d, response := .done } :: s.log }

/-- R36, R121: a write to a read-only register or to the raw window is ignored, busy or not, and never sets OVR. -/
def Obligations.ReadOnlyWritesAreIgnored : Prop :=
  ∀ (s : State) (off d : Word), s.params.legal = true →
    (off ∈ [0x004#32, 0x00C#32, 0x01C#32, 0x020#32, 0x024#32, 0x028#32, 0x02C#32] ∨
      off.toNat % 4 = 0 ∧ 0x80000000 ≤ off.toNat ∧ off.toNat < 0x80000000 + s.params.arrayBytes) →
    hostWrite off d s = .next { s with log := { access := .write off d, response := .done } :: s.log }

/-- R38: with nothing pending, a key-window write stores the four bytes of its word little-endian and no other byte, and
a read of that word, at any later time at which those bytes are unchanged, returns it. -/
def Obligations.KeyWindowIsLittleEndian : Prop :=
  ∀ (s : State) (j : Nat) (d : Word), Invariant s → s.pend = none → j < s.params.keyMax / 4 →
    ∃ t, hostWrite (BitVec.ofNat 32 (0x1000 + 4 * j)) d s = .next t ∧
      t = { s with
            key := t.key
            log := { access := .write (BitVec.ofNat 32 (0x1000 + 4 * j)) d, response := .done } :: s.log } ∧
      (∀ i, i < 4 → t.key.read (4 * j + i) = d.extractLsb' (8 * i) 8) ∧
      (∀ a, a < 4 * j ∨ 4 * j + 4 ≤ a → t.key.read a = s.key.read a) ∧
      ∀ u : State, u.params = s.params → (∀ i, i < 4 → u.key.read (4 * j + i) = t.key.read (4 * j + i)) →
        hostRead (BitVec.ofNat 32 (0x1000 + 4 * j)) u =
          { u with
            log := { access := .read (BitVec.ofNat 32 (0x1000 + 4 * j)), response := .data d } :: u.log }

/-- R38, R61: key-window word `j` is the little-endian chunk `j` the hash reads. -/
def Obligations.KeyWindowWordIsHashChunk : Prop :=
  ∀ (s : State) (j : Nat), 4 * j + 3 < s.keyLen.toNat →
    memReadLE (keyBytes s) (4 * j) 4 = keyWordAt j s ∧
      keyWordAt j s =
        (s.key.read (4 * j)).setWidth 32 ||| (s.key.read (4 * j + 1)).setWidth 32 <<< 8 |||
          (s.key.read (4 * j + 2)).setWidth 32 <<< 16 ||| (s.key.read (4 * j + 3)).setWidth 32 <<< 24

/-- R41 (with R40): bit `i` of the bit array is bit `i mod 32` of raw word `i div 32`. -/
def Obligations.RawWindowShowsTheBitArray : Prop :=
  ∀ (s : State) (i : Nat), Invariant s → s.pend = none → i < s.size.toNat →
    ∃ v : Word,
      hostRead (BitVec.ofNat 32 (0x80000000 + 4 * (i / 32))) s =
        { s with
          log := { access := .read (BitVec.ofNat 32 (0x80000000 + 4 * (i / 32))), response := .data v } :: s.log } ∧
      v.getLsbD (i % 32) = s.bit i

/-- R40: raw bytes inside the array read as stored, bytes at `(SIZE + 7) div 8` and beyond read 0. -/
def Obligations.RawWindowBytes : Prop :=
  ∀ (s : State) (w : Nat), s.params.legal = true → s.pend = none → w < s.params.arrayBytes / 4 →
    ∃ v : Word,
      hostRead (BitVec.ofNat 32 (0x80000000 + 4 * w)) s =
        { s with
          log := { access := .read (BitVec.ofNat 32 (0x80000000 + 4 * w)), response := .data v } :: s.log } ∧
      ∀ i, i < 4 → v.extractLsb' (8 * i) 8 =
        if 4 * w + i < (s.size.toNat + 7) / 8 then s.arr.read (4 * w + i) else 0

/-- R24, R121, R122: while a command is pending, nothing HOST does short of a reset changes PEND, an operand, KEY or any
other state the command works on: only OVR can change, and the HOST side. -/
def Obligations.HostCannotDisturbAPendingCommand : Prop :=
  ∀ s t : State, s.pend ≠ none → outsideMoves s = true → takesReset s = false → step s = .next t →
    t = { s with ovr := t.ovr, inputs := t.inputs, log := t.log, draws := t.draws } ∧
      (s.ovr = true → t.ovr = true)

/-- R47: a STATUS read that returns BUSY = 0 is made when no command is pending. -/
def Obligations.StatusPollSeesCompletion : Prop :=
  ∀ (s t : State) (v : Word), step s = .next t →
    t.log = { access := .read 0x004, response := .data v } :: s.log → v.getLsbD 0 = false →
      s.pend = none ∧ t.pend = none

/-! ### HASH -/

/-- R67: BF's reference value. -/
def Obligations.HashOfHello : Prop := hash32 [0x68, 0x65, 0x6C, 0x6C, 0x6F] 0 = BitVec.ofNat 32 613153351

/-- R66 (with R64 written out): the empty key hashes to the finalization of the seed, and to 0 for seed 0. -/
def Obligations.HashOfTheEmptyKey : Prop :=
  (∀ seed : Word,
    let h1 := seed ^^^ (seed >>> 16)
    let h2 := h1 * 0x85ebca6b#32
    let h3 := h2 ^^^ (h2 >>> 13)
    let h4 := h3 * 0xc2b2ae35#32
    hash32 [] seed = h4 ^^^ (h4 >>> 16)) ∧
    hash32 [] 0 = 0

/-- R69: from its start state HASHU reaches DONE after exactly `nb + 8` transitions, with `Hash32(key, seed)`. That the
machine of R69 stands beside State and not in it is notes/assumptions/12.md. -/
def Obligations.HashUnitComputesHash32 : Prop :=
  ∀ (key : List Byte) (seed : Word),
    (hashUnitRun key (key.length / 4 + 8) (hashUnitStart seed)).phase = .done ∧
      (hashUnitRun key (key.length / 4 + 8) (hashUnitStart seed)).h = hash32 key seed ∧
      ∀ n, n < key.length / 4 + 8 → (hashUnitRun key n (hashUnitStart seed)).phase ≠ .done

/-- R70: HASH writes `Hash32(KEY[0 .. KEY_LEN-1], ARG)` to RESULT and nothing else but the end of BUSY, configured or
not. -/
def Obligations.HashWritesResult : Prop :=
  ∀ s : State, s.keyLen.toNat ≤ s.params.keyMax →
    exec .hash s = .next
      { s with
        pend := none
        result := hash32 ((List.range s.keyLen.toNat).map (fun j => s.key.read j)) s.arg }

/-- R27: bytes of KEY at or beyond KEY_LEN "have no effect on any result". -/
def Obligations.BytesBeyondKeyLenHaveNoEffect : Prop :=
  ∀ (s t : State) (k : Memory) (i : Instr), i = .hash ∨ i = .bfInsert ∨ i = .bfQuery →
    (∀ a, a < s.keyLen.toNat → k.read a = s.key.read a) → exec i s = .next t →
      exec i { s with key := k } = .next { t with key := k }

/-! ### The bit-array commands -/

/-- R75: BA_INIT zeroes ARR and sets SIZE, for every `n` up to CAP_BITS, 0 among them. -/
def Obligations.BaInitMakesAnEmptyArray : Prop :=
  ∀ s : State, s.configured = false → s.arg.toNat ≤ 8 * s.params.arrayBytes →
    ∃ t, exec .baInit s = .next t ∧ t = { s with pend := none, size := s.arg, arr := t.arr } ∧ ∀ b, t.arr.read b = 0

/-- R76: BA_TEST writes the bit to RESULT as 0 or 1, configured or not. -/
def Obligations.BaTestReadsTheBit : Prop :=
  ∀ s : State, Invariant s → s.arg.toNat < s.size.toNat →
    exec .baTest s = .next
      { s with pend := none, result := if (s.arr.read (s.arg.toNat / 8)).getLsbD (s.arg.toNat % 8) then 1 else 0 }

/-- R77, R73: BA_SET sets bit ARG, and no other bit and no byte but its own can change. -/
def Obligations.BaSetSetsOneBit : Prop :=
  ∀ s : State, Invariant s → s.configured = false → s.arg.toNat < s.size.toNat →
    ∃ t, exec .baSet s = .next t ∧ t = { s with pend := none, arr := t.arr } ∧
      (∀ q, t.bit q = if q = s.arg.toNat then true else s.bit q) ∧
      ∀ b, b ≠ s.arg.toNat / 8 → t.arr.read b = s.arr.read b

/-- R78, R73: BA_CLEAR clears bit ARG, and no other bit and no byte but its own can change. -/
def Obligations.BaClearClearsOneBit : Prop :=
  ∀ s : State, Invariant s → s.configured = false → s.arg.toNat < s.size.toNat →
    ∃ t, exec .baClear s = .next t ∧ t = { s with pend := none, arr := t.arr } ∧
      (∀ q, t.bit q = if q = s.arg.toNat then false else s.bit q) ∧
      ∀ b, b ≠ s.arg.toNat / 8 → t.arr.read b = s.arr.read b

/-- R79, R73: BA_FLIP toggles bit ARG, and no other bit and no byte but its own can change. -/
def Obligations.BaFlipTogglesOneBit : Prop :=
  ∀ s : State, Invariant s → s.configured = false → s.arg.toNat < s.size.toNat →
    ∃ t, exec .baFlip s = .next t ∧ t = { s with pend := none, arr := t.arr } ∧
      (∀ q, t.bit q = if q = s.arg.toNat then !s.bit q else s.bit q) ∧
      ∀ b, b ≠ s.arg.toNat / 8 → t.arr.read b = s.arr.read b

/-- R74: while a filter is configured the four commands that change the array fault OWNED, before any other check. -/
def Obligations.OwnedArrayCannotBeMutated : Prop :=
  ∀ (s : State) (i : Instr) (op : Byte),
    (i, op) ∈ [(Instr.baInit, 0x10#8), (.baSet, 0x12#8), (.baClear, 0x13#8), (.baFlip, 0x14#8)] →
      s.configured = true →
        exec i s = .next
          { s with pend := none, fault := true, errCode := .owned, errOp := op, errArg := s.arg }

/-- R72: a position `pos >= SIZE`, `pos = SIZE` among them, faults BOUNDS before anything is written. -/
def Obligations.PositionOutOfRangeFaultsBounds : Prop :=
  ∀ (s : State) (i : Instr) (op : Byte),
    (i, op) ∈ [(Instr.baTest, 0x11#8), (.baSet, 0x12#8), (.baClear, 0x13#8), (.baFlip, 0x14#8)] →
      i = .baTest ∨ s.configured = false → s.size.toNat ≤ s.arg.toNat →
        exec i s = .next
          { s with pend := none, fault := true, errCode := .bounds, errOp := op, errArg := s.arg }

/-- R75: a size above CAP_BITS faults BAD_SIZE. -/
def Obligations.BaInitTooLargeFaultsBadSize : Prop :=
  ∀ s : State, s.configured = false → 8 * s.params.arrayBytes < s.arg.toNat →
    exec .baInit s = .next
      { s with pend := none, fault := true, errCode := .badSize, errOp := 0x10, errArg := s.arg }

/-- R80: the four fidelity properties, for every position in range while no filter is configured. -/
def Obligations.BitArrayFidelity : Prop :=
  ∀ s : State, Invariant s → s.configured = false → s.arg.toNat < s.size.toNat →
    (∃ t u, exec .baSet s = .next t ∧ exec .baTest t = .next u ∧ u.result = 1) ∧
    (∃ t u, exec .baClear s = .next t ∧ exec .baTest t = .next u ∧ u.result = 0) ∧
    (∃ t u, exec .baFlip s = .next t ∧ exec .baFlip t = .next u ∧ u.arr = s.arr) ∧
    ∀ (i : Instr) (q : Word), i = .baSet ∨ i = .baClear ∨ i = .baFlip → q ≠ s.arg → q.toNat < s.size.toNat →
      ∃ t u v, exec i s = .next t ∧ exec .baTest { t with arg := q } = .next u ∧
        exec .baTest { s with arg := q } = .next v ∧ u.result = v.result

/-! ### The bloom-filter commands -/

/-- R86: BF_CONFIG zeroes ARR and writes SIZE, FILTER_K and CONFIGURED. -/
def Obligations.BfConfigConstructsTheFilter : Prop :=
  ∀ s : State, s.configured = false → 1 ≤ s.cfgM.toNat → s.cfgM.toNat ≤ 8 * s.params.arrayBytes →
    1 ≤ s.cfgK.toNat →
      ∃ t, exec .bfConfig s = .next t ∧
        t = { s with pend := none, size := s.cfgM, filterK := s.cfgK, configured := true, arr := t.arr } ∧
        ∀ b, t.arr.read b = 0

/-- R86, R100, R104: BF_CONFIG's faults, in the order of its checks. -/
def Obligations.BfConfigFaultsInOrder : Prop :=
  ∀ s : State,
    (s.configured = true →
      exec .bfConfig s = .next
        { s with pend := none, fault := true, errCode := .alreadyConfigured, errOp := 0x20, errArg := 0 }) ∧
    (s.configured = false → s.cfgM = 0 ∨ 8 * s.params.arrayBytes < s.cfgM.toNat →
      exec .bfConfig s = .next
        { s with pend := none, fault := true, errCode := .badConfig, errOp := 0x20, errArg := s.cfgM }) ∧
    (s.configured = false → 1 ≤ s.cfgM.toNat → s.cfgM.toNat ≤ 8 * s.params.arrayBytes → s.cfgK = 0 →
      exec .bfConfig s = .next
        { s with pend := none, fault := true, errCode := .badConfig, errOp := 0x20, errArg := 0 })

/-- R87, R85, R84: BF_INSERT sets exactly the bits with the indices of rounds `0 .. k-1`, and changes no byte without
such a bit and nothing else. -/
def Obligations.BfInsertSetsTheIndexedBits : Prop :=
  ∀ s : State, Invariant s → s.configured = true → s.keyLen.toNat ≤ s.params.keyMax →
    ∃ t, exec .bfInsert s = .next t ∧ t = { s with pend := none, arr := t.arr } ∧
      (∀ q, t.bit q = true ↔ s.bit q = true ∨
        ∃ i, i < s.filterK.toNat ∧ q = (hash32 (keyBytes s) (BitVec.ofNat 32 i)).toNat % s.size.toNat) ∧
      ∀ b, (∀ i, i < s.filterK.toNat →
        b ≠ (hash32 (keyBytes s) (BitVec.ofNat 32 i)).toNat % s.size.toNat / 8) → t.arr.read b = s.arr.read b

/-- R88, R85: BF_QUERY answers 1 exactly when the bits of all rounds `0 .. k-1` are set, and changes only RESULT. -/
def Obligations.BfQueryTestsTheIndexedBits : Prop :=
  ∀ s : State, Invariant s → s.configured = true → s.keyLen.toNat ≤ s.params.keyMax →
    ∃ t, exec .bfQuery s = .next t ∧ t = { s with pend := none, result := t.result } ∧
      (t.result = 0 ∨ t.result = 1) ∧
      (t.result = 1 ↔ ∀ i, i < s.filterK.toNat →
        s.bit ((hash32 (keyBytes s) (BitVec.ofNat 32 i)).toNat % s.size.toNat) = true)

/-- R87, R88, R104: the filter commands fault NOT_CONFIGURED first. -/
def Obligations.FilterCommandsNeedAFilter : Prop :=
  ∀ (s : State) (i : Instr) (op : Byte), (i, op) ∈ [(Instr.bfInsert, 0x21#8), (.bfQuery, 0x22#8)] →
    s.configured = false →
      exec i s = .next { s with pend := none, fault := true, errCode := .notConfigured, errOp := op, errArg := 0 }

/-- R70, R87, R88: a key longer than KEY_MAX faults KEY_LEN_ERR, HASH's whether or not a filter is configured. -/
def Obligations.KeyTooLongFaultsKeyLenErr : Prop :=
  ∀ (s : State) (i : Instr) (op : Byte),
    (i, op) ∈ [(Instr.hash, 0x01#8), (.bfInsert, 0x21#8), (.bfQuery, 0x22#8)] →
      i = .hash ∨ s.configured = true → s.params.keyMax < s.keyLen.toNat →
        exec i s = .next
          { s with pend := none, fault := true, errCode := .keyLenErr, errOp := op, errArg := s.keyLen }

/-- R84: every index is `Hash32(key, i) mod SIZE` and lies in `[0, SIZE - 1]`, and no filter command raises BOUNDS. -/
def Obligations.FilterIndicesAreInRange : Prop :=
  ∀ s : State, Invariant s →
    (s.configured = true → ∀ (key : List Byte) (i : Nat),
      roundIndex key s.size i = .ok ((hash32 key (BitVec.ofNat 32 i)).toNat % s.size.toNat) ∧
        (hash32 key (BitVec.ofNat 32 i)).toNat % s.size.toNat ≤ s.size.toNat - 1) ∧
    ∀ i : Instr, i = .bfConfig ∨ i = .bfInsert ∨ i = .bfQuery → s.fault = false →
      ∃ t, exec i s = .next t ∧ t.errCode ≠ .bounds

/-- R87: inserting one key twice leaves ARR as after once. -/
def Obligations.InsertIsIdempotent : Prop :=
  ∀ s t u : State, Invariant s → exec .bfInsert s = .next t → exec .bfInsert t = .next u → u.arr = t.arr

/-- R92: after a successful BF_CONFIG, and as long as there is no reset and no BF_INSERT, a query of any key answers
0. -/
def Obligations.EmptyFilterAnswersNo : Prop :=
  ∀ s t u v : State, Invariant s → s.configured = false → exec .bfConfig s = .next t → t.configured = true →
    RunsAvoiding (fun a => takesReset a || completesInsert a) t u → exec .bfQuery u = .next v → v.fault = false →
      v.result = 0

/-- R93: a key whose insert completed without fault is answered 1 by every query of it before the next reset, whatever
HOST and CORE do in between. -/
def Obligations.NoFalseNegatives : Prop :=
  ∀ s t u v : State, Invariant s → exec .bfInsert s = .next t → t.fault = false → RunsAvoiding takesReset t u →
    u.keyLen = s.keyLen → (∀ a, a < s.keyLen.toNat → u.key.read a = s.key.read a) →
      exec .bfQuery u = .next v → v.fault = false → v.result = 1

/-- R94: while a filter is configured no step but a reset changes a bit from 1 to 0, and the filter stays configured. -/
def Obligations.FilterBitsOnlyRise : Prop :=
  ∀ s t : State, Invariant s → s.configured = true → takesReset s = false → step s = .next t →
    t.configured = true ∧ ∀ q, s.bit q = true → t.bit q = true

/-- R83, R22: while a filter is configured, `m` and `k` change only by a reset. -/
def Obligations.FilterParametersAreFixed : Prop :=
  ∀ s t : State, s.configured = true → takesReset s = false → step s = .next t →
    t.configured = true ∧ t.size = s.size ∧ t.filterK = s.filterK

/-- R89: run from IDLE, the sequencer ends in DONE with the ARR of BF_INSERT, and with the answer of BF_QUERY in RESULT.
R89 gives no count of transitions: one from IDLE and three a round is the model's choice, because its machine takes HASH(i)
as one transition (DESIGN CHOICE, notes/assumptions/18.md). -/
def Obligations.SequencerHasTheCommandsEffects : Prop :=
  ∀ s : State, Invariant s → s.configured = true → s.keyLen.toNat ≤ s.params.keyMax →
    (∃ t, exec .bfInsert s = .next t ∧
      sequencerRun .insert (keyBytes s) s.size s.filterK.toNat (3 * s.filterK.toNat + 1) (sequencerStart s) =
        { phase := .done, arr := t.arr, answer := true }) ∧
    ∃ t b n, exec .bfQuery s = .next t ∧ n ≤ 3 * s.filterK.toNat + 1 ∧
      sequencerRun .query (keyBytes s) s.size s.filterK.toNat n (sequencerStart s) =
        { phase := .done, arr := s.arr, answer := b } ∧
      t.result = boolWord b

/-! ### Faults -/

/-- R101: fault entry writes FAULT, ERRCODE, ERR_OP, ERR_ARG, PEND and BUSY, and nothing else. -/
def Obligations.FaultEntryWritesOnlyTheRecord : Prop :=
  ∀ (w : Word) (code : ErrCode) (a : Word) (s : State), ∃ t, raiseFault w code a s = .next t ∧
    t = { s with pend := none, fault := true, errCode := code, errOp := w.extractLsb' 0 8, errArg := a } ∧
    t.busy = false ∧ t.status.getLsbD 0 = false ∧ t.status.getLsbD 1 = true ∧
    t.status.extractLsb' 8 4 = errCodeBits code ∧ t.status.extractLsb' 16 8 = w.extractLsb' 0 8

/-- R103: a command that faults leaves ARR, RESULT, SIZE, FILTER_K, CONFIGURED and all else but the fault record as they
were. -/
def Obligations.FaultingCommandWritesNothingElse : Prop :=
  ∀ (i : Instr) (s t : State), s.fault = false → exec i s = .next t → t.fault = true →
    t = { s with pend := none, fault := true, errCode := t.errCode, errOp := opcode i, errArg := t.errArg } ∧
      t.errCode ≠ .noFault

/-- R102, R106: from the faulted state, every step but a reset keeps FAULT, ERRCODE, ERR_OP and ERR_ARG, and accepts no
command. -/
def Obligations.FirstFaultIsKeptUntilReset : Prop :=
  ∀ s t : State, Invariant s → s.fault = true → takesReset s = false → step s = .next t →
    t.fault = true ∧ t.errCode = s.errCode ∧ t.errOp = s.errOp ∧ t.errArg = s.errArg ∧ t.pend = none ∧
      t.arr = s.arr ∧ t.result = s.result ∧ t.size = s.size ∧ t.filterK = s.filterK ∧ t.configured = s.configured

/-! ### The whole machine -/

/-- The reset state meets the invariant (R8, R22, R28, R29, R32). -/
def Obligations.ResetStateMeetsTheInvariant : Prop := Invariant State.reset

/-- R22, R24, R27, R28, R29, R99, R102, R106: whatever the outside does, a step from a state that meets the invariant
gives one that meets it. -/
def Obligations.StepKeepsTheInvariant : Prop := ∀ s t : State, Invariant s → step s = .next t → Invariant t

/-- R54, R72, R84: from a state that meets the invariant a step always answers a next state: no storage byte that does
not exist is addressed and no remainder by zero is taken. -/
def Obligations.StepAlwaysAnswers : Prop := ∀ s : State, Invariant s → ∃ t, step s = .next t

/-- R16, R120: a pending command completes, or is discarded by a reset, after finitely many HOST accesses: at most as
many as the outside has queued, and one step more. -/
def Obligations.PendingCommandCompletes : Prop :=
  ∀ s : State, Invariant s → s.pend ≠ none →
    ∃ (n : Nat) (t : State), n ≤ s.inputs.length + 1 ∧ core.run n s = .next t ∧ t.pend = none

/-! ### The host side -/

/-- R91 (with R90): in the valid domain the real-valued formulas give `m >= 1` and `k >= 1`; outside it the host does not
configure, and neither does a host that computes in binary64, whatever its `ln` is: for `n = 0`, for a `p` that is not a
number or is infinite, for every negative `p`, for both zeros and for every `p >= 1`. The host's arithmetic is an argument
(notes/assumptions/10.md). -/
def Obligations.SizingGivesAUsableFilter : Prop :=
  (∀ (n : Nat) (p : ℝ),
    (1 ≤ n → 0 < p → p < 1 →
      ∃ m k : Int, hostSizing (exactArith Real.log) n p = some (m, k) ∧
        m = ⌈-((n : ℝ) * Real.log p) / Real.log 2 ^ 2⌉ ∧ k = ⌈(m : ℝ) / (n : ℝ) * Real.log 2⌉ ∧ 1 ≤ m ∧ 1 ≤ k) ∧
    (n = 0 ∨ p ≤ 0 ∨ 1 ≤ p → hostSizing (exactArith Real.log) n p = none)) ∧
  ∀ (ln : Binary64 → Binary64) (n : Nat) (p : Binary64),
    (n = 0 ∨ p = .nan ∨ (∃ s, p = .inf s) ∨ (∃ a e, p = .finite true a e) ∨ (∃ s e, p = .finite s 0 e) ∨
      ∃ a e, p = .finite false a e ∧ 2 ^ (-e).toNat ≤ a * 2 ^ e.toNat) →
    hostSizing (binary64Arith ln) n p = none
end

