-- ==== Sys2Proof/Laws/Binary64.lean ====
section
/-! SUPPORT. Laws of the host's binary64 numbers: rounding answers a representable datum and is within half a unit. -/

namespace Sys2Proof.Machine

/-- Rounding to an integer moves by at most a half. -/
theorem roundHalfEven_near {num den : Nat} (hd : 0 < den) :
    2 * num ≤ 2 * (den * roundHalfEven num den) + den ∧ 2 * (den * roundHalfEven num den) ≤ 2 * num + den := by
  have h := Nat.div_add_mod num den
  have hr := Nat.mod_lt num hd
  unfold roundHalfEven
  split
  · rw [Nat.mul_add, Nat.mul_one]; omega
  · omega

/-- Rounding to an integer stays at or below a bound the exact value is below. -/
theorem roundHalfEven_le {num den b : Nat} (h : num < b * den) : roundHalfEven num den ≤ b := by
  have h' : num / den < b := Nat.div_lt_of_lt_mul (by rwa [Nat.mul_comm])
  unfold roundHalfEven
  split <;> omega

theorem roundHalfEven_ge {num den b : Nat} (hd : 0 < den) (h : b * den ≤ num) : b ≤ roundHalfEven num den := by
  have h' : b ≤ num / den := (Nat.le_div_iff_mul_le hd).mpr h
  unfold roundHalfEven
  split <;> omega

/-- Scaling by a power of 2, as a comparison of products of natural numbers. -/
theorem scaled_lt (num den : Nat) (e : Int) :
    num * 2 ^ (-e).toNat < den * 2 ^ e.toNat ↔ (num : ℚ) < den * 2 ^ e := by
  rcases le_total 0 e with h | h
  · obtain ⟨k, rfl⟩ := Int.eq_ofNat_of_zero_le h
    simp only [Int.toNat_neg_natCast, pow_zero, mul_one, Int.toNat_natCast, zpow_natCast]
    exact_mod_cast Iff.rfl
  · obtain ⟨k, hk⟩ := Int.eq_ofNat_of_zero_le (neg_nonneg.mpr h)
    obtain rfl : e = -(k : Int) := by omega
    simp only [neg_neg, Int.toNat_natCast, Int.toNat_neg_natCast, pow_zero, mul_one, zpow_neg, zpow_natCast]
    rw [← div_eq_mul_inv, lt_div_iff₀ (by positivity)]
    exact_mod_cast Iff.rfl

/-- The leading exponent is the floor of the binary logarithm. -/
theorem leadingExp_spec {num den : Nat} (hn : num ≠ 0) (hd : den ≠ 0) :
    (den : ℚ) * 2 ^ leadingExp num den ≤ num ∧ (num : ℚ) < den * 2 ^ (leadingExp num den + 1) := by
  have hd0 : (0 : ℚ) < den := by exact_mod_cast Nat.pos_of_ne_zero hd
  have n1 : ((2 ^ num.log2 : Nat) : ℚ) ≤ num := by exact_mod_cast Nat.log2_self_le hn
  have n2 : (num : ℚ) < ((2 ^ (num.log2 + 1) : Nat) : ℚ) := by exact_mod_cast Nat.lt_log2_self
  have d1 : ((2 ^ den.log2 : Nat) : ℚ) ≤ den := by exact_mod_cast Nat.log2_self_le hd
  have d2 : (den : ℚ) < ((2 ^ (den.log2 + 1) : Nat) : ℚ) := by exact_mod_cast Nat.lt_log2_self
  push_cast at n1 n2 d1 d2
  have hup : (num : ℚ) < den * 2 ^ ((num.log2 : Int) - den.log2 + 1) := by
    calc (num : ℚ) < 2 ^ (num.log2 + 1) := n2
      _ = 2 ^ den.log2 * 2 ^ ((num.log2 : Int) - den.log2 + 1) := by
        rw [← zpow_natCast, ← zpow_natCast, ← zpow_add₀ (by norm_num)]; congr 1; push_cast; ring
      _ ≤ _ := by gcongr
  have hlow : (den : ℚ) * 2 ^ ((num.log2 : Int) - den.log2 - 1) ≤ num := by
    calc (den : ℚ) * 2 ^ ((num.log2 : Int) - den.log2 - 1)
        ≤ 2 ^ (den.log2 + 1) * 2 ^ ((num.log2 : Int) - den.log2 - 1) := by gcongr
      _ = 2 ^ num.log2 := by
        rw [← zpow_natCast, ← zpow_natCast, ← zpow_add₀ (by norm_num)]; congr 1; push_cast; ring
      _ ≤ _ := n1
  unfold leadingExp
  simp only [scaled_lt]
  split
  · next h => exact ⟨hlow, by rwa [sub_add_cancel]⟩
  · next h => exact ⟨not_lt.mp h, hup⟩

/-- Packing a significand of at most `2 ^ 53` answers a representable datum. -/
theorem packSig_representable (neg : Bool) {sig : Nat} {e : Int} (h : sig ≤ 2 ^ 53) (he : binary64MinExp ≤ e)
    (hn : 2 ^ 52 ≤ sig ∨ e = binary64MinExp) : (packSig neg sig e).representable = true := by
  unfold packSig
  split_ifs
  · simp only [Binary64.representable, Bool.and_eq_true, Bool.or_eq_true, decide_eq_true_eq]
    refine ⟨⟨⟨by norm_num, by omega⟩, by omega⟩, .inl (le_refl _)⟩
  · rfl
  · simp only [Binary64.representable, Bool.and_eq_true, Bool.or_eq_true, decide_eq_true_eq]
    exact ⟨⟨⟨by omega, he⟩, by omega⟩, hn⟩
  · rfl

/-- Rounding answers a representable datum. -/
theorem roundBinary64_representable (neg : Bool) (num : Nat) {den : Nat} (hd : den ≠ 0) :
    (roundBinary64 neg num den).representable = true := by
  unfold roundBinary64
  split_ifs with hn
  · rfl
  · obtain ⟨h1, h2⟩ := leadingExp_spec hn hd
    have hpos : 0 < den * 2 ^ (roundingExp num den).toNat := by positivity
    refine packSig_representable neg (roundHalfEven_le ?_) (le_max_right _ _) ?_
    · rw [← mul_assoc, scaled_lt]
      refine lt_of_lt_of_le h2 ?_
      rw [Nat.cast_mul, mul_comm ((2 ^ 53 : Nat) : ℚ), mul_assoc, Nat.cast_pow, ← zpow_natCast, Nat.cast_ofNat,
        ← zpow_add₀ (by norm_num)]
      have he : leadingExp num den + 1 ≤ ((53 : Nat) : Int) + roundingExp num den := by
        have := le_max_left (leadingExp num den - 52) binary64MinExp
        rw [roundingExp]
        omega
      gcongr
      norm_num
    · rcases le_total (leadingExp num den - 52) binary64MinExp with h | h
      · exact .inr (max_eq_right h)
      · refine .inl (roundHalfEven_ge hpos ?_)
        rw [← mul_assoc, ← not_lt, scaled_lt, not_lt]
        refine le_trans (le_of_eq ?_) h1
        rw [roundingExp, max_eq_left h]
        rw [Nat.cast_mul, mul_comm ((2 ^ 52 : Nat) : ℚ), mul_assoc, Nat.cast_pow, ← zpow_natCast, Nat.cast_ofNat,
          ← zpow_add₀ (by norm_num)]
        congr 2
        push_cast
        ring

end Sys2Proof.Machine
end

