-- ==== Sys2Proof/Laws/Decode.lean ====
section
/-! SUPPORT. The laws of the decoder. -/

namespace Sys2Proof

/-- A word is its two format-C fields. -/
theorem word_eq_fields (w : Word) : w = (mbzField w ++ opField w : BitVec 32) := by
  unfold mbzField opField
  apply BitVec.eq_of_getLsbD_eq
  intro i hi
  rw [BitVec.getLsbD_append]
  by_cases h : i < 8
  · simp [h]
  · simp only [h, decide_false, BitVec.getLsbD_extractLsb']
    rw [show 8 + (i - 8) = i by omega]
    simp [show i - 8 < 24 by omega]

@[simp] theorem opField_encode (i : Instr) : opField (encode i) = opcode i := by cases i <;> decide

@[simp] theorem mbzField_encode (i : Instr) : mbzField (encode i) = 0 := by cases i <;> decide

/-- A row that is found is in the list. -/
theorem lookupOp_mem {op : Byte} {i : Instr} {rows : List (Byte × Instr)} (h : lookupOp op rows = some i) :
    (op, i) ∈ rows := by
  induction rows with
  | nil => cases h
  | cons r rows ih =>
    unfold lookupOp at h
    split at h
    · next e =>
      injection h with h
      subst e h
      exact List.mem_cons_self
    · exact List.mem_cons_of_mem _ (ih h)

/-- A row of the opcode map that is found carries the opcode of its command. -/
theorem lookupOp_opcodeMap {op : Byte} {i : Instr} (h : lookupOp op opcodeMap = some i) : op = opcode i :=
  (by decide : ∀ r ∈ opcodeMap, r.1 = opcode r.2) _ (lookupOp_mem h)

/-- A word that decodes has MBZ clear and the command's opcode. -/
theorem decode_ok_fields {w : Word} {i : Instr} (h : decode w = .ok i) : mbzField w = 0 ∧ opField w = opcode i := by
  unfold decode at h
  split at h
  · next hm =>
    split at h
    · next j hj =>
      injection h with h
      exact ⟨hm, h ▸ lookupOp_opcodeMap hj⟩
    · cases h
  · cases h

/-- A pending word never decodes to SOFT_RESET (R54). -/
theorem decodePending_ok {w : Word} {i : Instr} (h : decodePending w = .ok i) : decode w = .ok i ∧ i ≠ .softReset := by
  unfold decodePending at h
  split at h
  · cases h
  · next hne => exact ⟨h, fun e => hne (e ▸ h)⟩

end Sys2Proof
end

