-- ==== Sys2Proof/Laws/Memory.lean ====
section
/-! SUPPORT. The laws of byte memory: read after write, the canonical form, and that equal contents are equal data. -/

namespace Sys2Proof.Machine

@[simp] theorem memory_read_nil (a : Nat) : Memory.read [] a = 0 := rfl

@[simp] theorem memory_read_zeroed (a : Nat) : Memory.read Memory.zeroed a = 0 := rfl

theorem memory_read_cons (b : Nat) (v : Byte) (m : Memory) (a : Nat) :
    Memory.read ((b, v) :: m) a = if a = b then v else Memory.read m a := rfl

/-- Below its least listed address a memory reads as unlisted. -/
theorem memory_read_below {m : Memory} {a : Nat} (h : ∀ c ∈ m, a < c.1) : m.read a = Memory.unlisted := by
  induction m with
  | nil => rfl
  | cons c m ih =>
    have hc := h c List.mem_cons_self
    rw [memory_read_cons, if_neg (by omega), ih fun d hd => h d (List.mem_cons_of_mem _ hd)]

/-- An unlisted address reads as unlisted. -/
theorem memory_read_of_not_listed {m : Memory} {a : Nat} (h : ∀ c ∈ m, c.1 ≠ a) : m.read a = Memory.unlisted := by
  induction m with
  | nil => rfl
  | cons c m ih =>
    have hc := h c List.mem_cons_self
    rw [memory_read_cons, if_neg (by omega), ih fun d hd => h d (List.mem_cons_of_mem _ hd)]

theorem memory_wf_cons {c : Host.Cell} {m : Memory} :
    Memory.wf (c :: m) ↔ (∀ d ∈ m, c.1 < d.1) ∧ c.2 ≠ Memory.unlisted ∧ Memory.wf m := by
  simp only [Memory.wf, List.pairwise_cons, List.mem_cons, forall_eq_or_imp]
  constructor
  · rintro ⟨⟨h1, h2⟩, h3, h4⟩; exact ⟨h1, h3, h2, h4⟩
  · rintro ⟨h1, h3, h2, h4⟩; exact ⟨⟨h1, h2⟩, h3, h4⟩

theorem memory_wf_nil : Memory.wf [] := by simp [Memory.wf]

/-- Read after write: the written address gives the written byte and every other address what it gave before. -/
theorem memory_read_write {m : Memory} (hm : m.wf) (a : Nat) (v : Byte) (b : Nat) :
    (m.write a v).read b = if b = a then v else m.read b := by
  induction m with
  | nil =>
    simp only [Memory.write]
    split <;> simp_all [Memory.read, Memory.unlisted]
  | cons c m ih =>
    obtain ⟨x, y⟩ := c
    obtain ⟨h1, -, h3⟩ := memory_wf_cons.mp hm
    have below : ∀ e, e ≤ x → Memory.read m e = Memory.unlisted :=
      fun e he => memory_read_below fun d hd => Nat.lt_of_le_of_lt he (h1 d hd)
    simp only [Memory.write]
    split
    · split
      · next hv =>
        subst hv
        by_cases hb : b = a
        · subst hb
          rw [if_pos rfl, memory_read_cons, if_neg (by omega), below b (by omega)]
        · rw [if_neg hb]
      · rw [memory_read_cons]
    · split
      · next hx =>
        subst hx
        split
        · next hv =>
          subst hv
          by_cases hb : b = a
          · subst hb; rw [if_pos rfl, below b (Nat.le_refl b)]
          · rw [if_neg hb, memory_read_cons, if_neg hb]
        · simp only [memory_read_cons]; split <;> rfl
      · rw [memory_read_cons, ih h3, memory_read_cons]
        by_cases hb : b = x
        · subst hb; simp; omega
        · simp [hb]

/-- What a write lists: the written address, or what was listed before. -/
theorem memory_mem_write {m : Memory} {a : Nat} {v : Byte} {c : Host.Cell} (h : c ∈ m.write a v) :
    c.1 = a ∨ c ∈ m := by
  induction m with
  | nil =>
    simp only [Memory.write] at h
    split at h <;> simp_all
  | cons d m ih =>
    obtain ⟨x, y⟩ := d
    simp only [Memory.write] at h
    split at h
    · split at h
      · exact .inr h
      · rcases List.mem_cons.mp h with rfl | h
        · exact .inl rfl
        · exact .inr h
    · split at h
      · split at h
        · exact .inr (List.mem_cons_of_mem _ h)
        · rcases List.mem_cons.mp h with rfl | h
          · exact .inl rfl
          · exact .inr (List.mem_cons_of_mem _ h)
      · rcases List.mem_cons.mp h with rfl | h
        · exact .inr List.mem_cons_self
        · exact (ih h).imp_right (List.mem_cons_of_mem _)

/-- A write keeps the canonical form. -/
theorem memory_write_wf {m : Memory} (hm : m.wf) (a : Nat) (v : Byte) : (m.write a v).wf := by
  induction m with
  | nil =>
    simp only [Memory.write]
    split
    · exact memory_wf_nil
    · next hv => exact memory_wf_cons.mpr ⟨by simp, hv, memory_wf_nil⟩
  | cons c m ih =>
    obtain ⟨x, y⟩ := c
    obtain ⟨h1, h2, h3⟩ := memory_wf_cons.mp hm
    simp only [Memory.write]
    split
    · next hlt =>
      split
      · exact hm
      · next hv =>
        refine memory_wf_cons.mpr ⟨fun d hd => ?_, hv, hm⟩
        rcases List.mem_cons.mp hd with rfl | hd
        · exact hlt
        · exact Nat.lt_trans hlt (h1 d hd)
    · split
      · next hx =>
        split
        · exact h3
        · next hv => exact memory_wf_cons.mpr ⟨fun d hd => hx ▸ h1 d hd, hv, h3⟩
      · refine memory_wf_cons.mpr ⟨fun d hd => ?_, h2, ih h3⟩
        rcases memory_mem_write hd with h | h
        · show x < d.1; omega
        · exact h1 d h

/-- A write inside a range keeps a memory inside it. -/
theorem memory_write_inside {m : Memory} {n a : Nat} (hm : ∀ c ∈ m, c.1 < n) (ha : a < n) (v : Byte) :
    ∀ c ∈ m.write a v, c.1 < n := fun c hc => (memory_mem_write hc).elim (fun h => h ▸ ha) (hm c)

/-- In the canonical form equal contents are equal data. -/
theorem memory_ext {m k : Memory} (hm : m.wf) (hk : k.wf) (h : ∀ a, m.read a = k.read a) : m = k := by
  induction m generalizing k with
  | nil =>
    cases k with
    | nil => rfl
    | cons d k =>
      have := h d.1
      rw [show d = (d.1, d.2) from rfl, memory_read_cons, if_pos rfl] at this
      exact absurd this.symm (memory_wf_cons.mp hk).2.1
  | cons c m ih =>
    obtain ⟨x, y⟩ := c
    obtain ⟨h1, h2, h3⟩ := memory_wf_cons.mp hm
    cases k with
    | nil =>
      have := h x
      rw [memory_read_cons, if_pos rfl] at this
      exact absurd this h2
    | cons d k =>
      obtain ⟨z, w⟩ := d
      obtain ⟨k1, k2, k3⟩ := memory_wf_cons.mp hk
      simp only at h1 h2 k1 k2
      have hxz : x = z := by
        rcases Nat.lt_trichotomy x z with hlt | heq | hlt
        · have hx := h x
          rw [memory_read_cons, if_pos rfl, memory_read_cons, if_neg (by omega),
            memory_read_below fun d hd => Nat.lt_trans hlt (k1 d hd)] at hx
          exact absurd hx h2
        · exact heq
        · have hz := h z
          rw [memory_read_cons, if_neg (by omega), memory_read_below fun d hd => Nat.lt_trans hlt (h1 d hd),
            memory_read_cons, if_pos rfl] at hz
          exact absurd hz.symm k2
      subst hxz
      have hy : y = w := by simpa [memory_read_cons] using h x
      subst hy
      have : m = k := ih h3 k3 fun a => by
        by_cases ha : a = x
        · subst ha
          rw [memory_read_below (fun d hd => h1 d hd), memory_read_below (fun d hd => k1 d hd)]
        · have := h a
          simpa [memory_read_cons, ha] using this
      rw [this]

end Sys2Proof.Machine
end

