-- ==== Sys2Proof/Laws/State.lean ====
section
/-! SUPPORT. What each named update of State leaves in each field. -/

namespace Sys2Proof.Machine

variable (s : State)

@[simp] theorem complete_params : s.complete.params = s.params := rfl
@[simp] theorem complete_pend : s.complete.pend = none := rfl
@[simp] theorem complete_fault : s.complete.fault = s.fault := rfl
@[simp] theorem complete_configured : s.complete.configured = s.configured := rfl
@[simp] theorem complete_ovr : s.complete.ovr = s.ovr := rfl
@[simp] theorem complete_errCode : s.complete.errCode = s.errCode := rfl
@[simp] theorem complete_errOp : s.complete.errOp = s.errOp := rfl
@[simp] theorem complete_arg : s.complete.arg = s.arg := rfl
@[simp] theorem complete_result : s.complete.result = s.result := rfl
@[simp] theorem complete_keyLen : s.complete.keyLen = s.keyLen := rfl
@[simp] theorem complete_cfgM : s.complete.cfgM = s.cfgM := rfl
@[simp] theorem complete_cfgK : s.complete.cfgK = s.cfgK := rfl
@[simp] theorem complete_size : s.complete.size = s.size := rfl
@[simp] theorem complete_filterK : s.complete.filterK = s.filterK := rfl
@[simp] theorem complete_errArg : s.complete.errArg = s.errArg := rfl
@[simp] theorem complete_key : s.complete.key = s.key := rfl
@[simp] theorem complete_arr : s.complete.arr = s.arr := rfl
@[simp] theorem complete_inputs : s.complete.inputs = s.inputs := rfl
@[simp] theorem complete_log : s.complete.log = s.log := rfl
@[simp] theorem complete_draws : s.complete.draws = s.draws := rfl

@[simp] theorem enterFault_params (w : Word) (c : ErrCode) (a : Word) : (s.enterFault w c a).params = s.params := rfl
@[simp] theorem enterFault_pend (w : Word) (c : ErrCode) (a : Word) : (s.enterFault w c a).pend = none := rfl
@[simp] theorem enterFault_fault (w : Word) (c : ErrCode) (a : Word) : (s.enterFault w c a).fault = true := rfl
@[simp] theorem enterFault_configured (w : Word) (c : ErrCode) (a : Word) : (s.enterFault w c a).configured = s.configured := rfl
@[simp] theorem enterFault_ovr (w : Word) (c : ErrCode) (a : Word) : (s.enterFault w c a).ovr = s.ovr := rfl
@[simp] theorem enterFault_errCode (w : Word) (c : ErrCode) (a : Word) : (s.enterFault w c a).errCode = c := rfl
@[simp] theorem enterFault_errOp (w : Word) (c : ErrCode) (a : Word) : (s.enterFault w c a).errOp = opField w := rfl
@[simp] theorem enterFault_arg (w : Word) (c : ErrCode) (a : Word) : (s.enterFault w c a).arg = s.arg := rfl
@[simp] theorem enterFault_result (w : Word) (c : ErrCode) (a : Word) : (s.enterFault w c a).result = s.result := rfl
@[simp] theorem enterFault_keyLen (w : Word) (c : ErrCode) (a : Word) : (s.enterFault w c a).keyLen = s.keyLen := rfl
@[simp] theorem enterFault_cfgM (w : Word) (c : ErrCode) (a : Word) : (s.enterFault w c a).cfgM = s.cfgM := rfl
@[simp] theorem enterFault_cfgK (w : Word) (c : ErrCode) (a : Word) : (s.enterFault w c a).cfgK = s.cfgK := rfl
@[simp] theorem enterFault_size (w : Word) (c : ErrCode) (a : Word) : (s.enterFault w c a).size = s.size := rfl
@[simp] theorem enterFault_filterK (w : Word) (c : ErrCode) (a : Word) : (s.enterFault w c a).filterK = s.filterK := rfl
@[simp] theorem enterFault_errArg (w : Word) (c : ErrCode) (a : Word) : (s.enterFault w c a).errArg = a := rfl
@[simp] theorem enterFault_key (w : Word) (c : ErrCode) (a : Word) : (s.enterFault w c a).key = s.key := rfl
@[simp] theorem enterFault_arr (w : Word) (c : ErrCode) (a : Word) : (s.enterFault w c a).arr = s.arr := rfl
@[simp] theorem enterFault_inputs (w : Word) (c : ErrCode) (a : Word) : (s.enterFault w c a).inputs = s.inputs := rfl
@[simp] theorem enterFault_log (w : Word) (c : ErrCode) (a : Word) : (s.enterFault w c a).log = s.log := rfl
@[simp] theorem enterFault_draws (w : Word) (c : ErrCode) (a : Word) : (s.enterFault w c a).draws = s.draws := rfl

@[simp] theorem resetBlock_params : s.resetBlock.params = s.params := rfl
@[simp] theorem resetBlock_pend : s.resetBlock.pend = none := rfl
@[simp] theorem resetBlock_fault : s.resetBlock.fault = false := rfl
@[simp] theorem resetBlock_configured : s.resetBlock.configured = false := rfl
@[simp] theorem resetBlock_ovr : s.resetBlock.ovr = false := rfl
@[simp] theorem resetBlock_errCode : s.resetBlock.errCode = .noFault := rfl
@[simp] theorem resetBlock_errOp : s.resetBlock.errOp = 0 := rfl
@[simp] theorem resetBlock_arg : s.resetBlock.arg = 0 := rfl
@[simp] theorem resetBlock_result : s.resetBlock.result = 0 := rfl
@[simp] theorem resetBlock_keyLen : s.resetBlock.keyLen = 0 := rfl
@[simp] theorem resetBlock_cfgM : s.resetBlock.cfgM = 0 := rfl
@[simp] theorem resetBlock_cfgK : s.resetBlock.cfgK = 0 := rfl
@[simp] theorem resetBlock_size : s.resetBlock.size = 0 := rfl
@[simp] theorem resetBlock_filterK : s.resetBlock.filterK = 0 := rfl
@[simp] theorem resetBlock_errArg : s.resetBlock.errArg = 0 := rfl
@[simp] theorem resetBlock_key : s.resetBlock.key = [] := rfl
@[simp] theorem resetBlock_arr : s.resetBlock.arr = [] := rfl
@[simp] theorem resetBlock_inputs : s.resetBlock.inputs = s.inputs := rfl
@[simp] theorem resetBlock_log : s.resetBlock.log = s.log := rfl
@[simp] theorem resetBlock_draws : s.resetBlock.draws = s.draws := rfl

@[simp] theorem noteOverrun_params : s.noteOverrun.params = s.params := rfl
@[simp] theorem noteOverrun_pend : s.noteOverrun.pend = s.pend := rfl
@[simp] theorem noteOverrun_fault : s.noteOverrun.fault = s.fault := rfl
@[simp] theorem noteOverrun_configured : s.noteOverrun.configured = s.configured := rfl
@[simp] theorem noteOverrun_ovr : s.noteOverrun.ovr = true := rfl
@[simp] theorem noteOverrun_errCode : s.noteOverrun.errCode = s.errCode := rfl
@[simp] theorem noteOverrun_errOp : s.noteOverrun.errOp = s.errOp := rfl
@[simp] theorem noteOverrun_arg : s.noteOverrun.arg = s.arg := rfl
@[simp] theorem noteOverrun_result : s.noteOverrun.result = s.result := rfl
@[simp] theorem noteOverrun_keyLen : s.noteOverrun.keyLen = s.keyLen := rfl
@[simp] theorem noteOverrun_cfgM : s.noteOverrun.cfgM = s.cfgM := rfl
@[simp] theorem noteOverrun_cfgK : s.noteOverrun.cfgK = s.cfgK := rfl
@[simp] theorem noteOverrun_size : s.noteOverrun.size = s.size := rfl
@[simp] theorem noteOverrun_filterK : s.noteOverrun.filterK = s.filterK := rfl
@[simp] theorem noteOverrun_errArg : s.noteOverrun.errArg = s.errArg := rfl
@[simp] theorem noteOverrun_key : s.noteOverrun.key = s.key := rfl
@[simp] theorem noteOverrun_arr : s.noteOverrun.arr = s.arr := rfl
@[simp] theorem noteOverrun_inputs : s.noteOverrun.inputs = s.inputs := rfl
@[simp] theorem noteOverrun_log : s.noteOverrun.log = s.log := rfl
@[simp] theorem noteOverrun_draws : s.noteOverrun.draws = s.draws := rfl

@[simp] theorem record_params (a : Access) (r : Response) : (s.record a r).params = s.params := rfl
@[simp] theorem record_pend (a : Access) (r : Response) : (s.record a r).pend = s.pend := rfl
@[simp] theorem record_fault (a : Access) (r : Response) : (s.record a r).fault = s.fault := rfl
@[simp] theorem record_configured (a : Access) (r : Response) : (s.record a r).configured = s.configured := rfl
@[simp] theorem record_ovr (a : Access) (r : Response) : (s.record a r).ovr = s.ovr := rfl
@[simp] theorem record_errCode (a : Access) (r : Response) : (s.record a r).errCode = s.errCode := rfl
@[simp] theorem record_errOp (a : Access) (r : Response) : (s.record a r).errOp = s.errOp := rfl
@[simp] theorem record_arg (a : Access) (r : Response) : (s.record a r).arg = s.arg := rfl
@[simp] theorem record_result (a : Access) (r : Response) : (s.record a r).result = s.result := rfl
@[simp] theorem record_keyLen (a : Access) (r : Response) : (s.record a r).keyLen = s.keyLen := rfl
@[simp] theorem record_cfgM (a : Access) (r : Response) : (s.record a r).cfgM = s.cfgM := rfl
@[simp] theorem record_cfgK (a : Access) (r : Response) : (s.record a r).cfgK = s.cfgK := rfl
@[simp] theorem record_size (a : Access) (r : Response) : (s.record a r).size = s.size := rfl
@[simp] theorem record_filterK (a : Access) (r : Response) : (s.record a r).filterK = s.filterK := rfl
@[simp] theorem record_errArg (a : Access) (r : Response) : (s.record a r).errArg = s.errArg := rfl
@[simp] theorem record_key (a : Access) (r : Response) : (s.record a r).key = s.key := rfl
@[simp] theorem record_arr (a : Access) (r : Response) : (s.record a r).arr = s.arr := rfl
@[simp] theorem record_inputs (a : Access) (r : Response) : (s.record a r).inputs = s.inputs := rfl
@[simp] theorem record_log (a : Access) (r : Response) : (s.record a r).log = { access := a, response := r } :: s.log := rfl
@[simp] theorem record_draws (a : Access) (r : Response) : (s.record a r).draws = s.draws := rfl

@[simp] theorem busy_eq_false : s.busy = false ↔ s.pend = none := by cases h : s.pend <;> simp [State.busy, h]

@[simp] theorem busy_eq_true : s.busy = true ↔ s.pend ≠ none := by cases h : s.pend <;> simp [State.busy, h]

end Sys2Proof.Machine
end

