-- ==== Sys2Proof/Laws/Ops.lean ====
section
/-! SUPPORT. One law for each shared operation on bits of ARR and for the two filter loops: what each can answer, and
what it does to every bit and byte. -/

namespace Sys2Proof.Machine

/-- A position is its byte and its place in the byte. -/
theorem pos_eq_iff (p q : Nat) : q = p ↔ byteOf q = byteOf p ∧ q % 8 = p % 8 := by
  unfold byteOf; omega

theorem maskOf_getLsbD (p q : Nat) : (maskOf p).getLsbD (q % 8) = decide (q % 8 = p % 8) := by
  have all : ∀ j < 8, ∀ k < 8, (1#8 <<< k).getLsbD j = decide (j = k) := by decide
  exact all _ (Nat.mod_lt _ (by decide)) _ (Nat.mod_lt _ (by decide))

/-- Within the addressed byte, OR with the mask sets the position's bit and keeps the others. -/
theorem or_mask_getLsbD (v : Byte) {p q : Nat} (h : byteOf q = byteOf p) :
    (v ||| maskOf p).getLsbD (q % 8) = if q = p then true else v.getLsbD (q % 8) := by
  rw [BitVec.getLsbD_or, maskOf_getLsbD]
  by_cases hq : q % 8 = p % 8 <;> simp [pos_eq_iff p q, h, hq]

/-- AND with the inverted mask clears the position's bit and keeps the others. -/
theorem and_not_mask_getLsbD (v : Byte) {p q : Nat} (h : byteOf q = byteOf p) :
    (v &&& ~~~maskOf p).getLsbD (q % 8) = if q = p then false else v.getLsbD (q % 8) := by
  have hlt : q % 8 < 8 := Nat.mod_lt _ (by decide)
  rw [BitVec.getLsbD_and, BitVec.getLsbD_not, maskOf_getLsbD]
  by_cases hq : q % 8 = p % 8 <;> simp [pos_eq_iff p q, h, hq, hlt]

/-- XOR with the mask toggles the position's bit and keeps the others. -/
theorem xor_mask_getLsbD (v : Byte) {p q : Nat} (h : byteOf q = byteOf p) :
    (v ^^^ maskOf p).getLsbD (q % 8) = if q = p then !v.getLsbD (q % 8) else v.getLsbD (q % 8) := by
  rw [BitVec.getLsbD_xor, maskOf_getLsbD]
  by_cases hq : q % 8 = p % 8 <;> simp [pos_eq_iff p q, h, hq]

/-- The bits after a byte of ARR is replaced. -/
theorem bit_write {s : State} (hs : s.arr.wf) (p : Nat) (v : Byte) (q : Nat) :
    State.bit { s with arr := s.arr.write (byteOf p) v } q =
      if byteOf q = byteOf p then v.getLsbD (q % 8) else s.bit q := by
  simp only [State.bit, memory_read_write hs]
  split <;> rfl

/-- What a single-byte read-modify-write does to every bit, when `f` acts on the position's bit alone. -/
theorem bit_modify {s : State} (hs : s.arr.wf) (f : Byte → Byte → Byte) (g : Bool → Bool) (p : Nat)
    (hf : ∀ q, byteOf q = byteOf p →
      (f (s.arr.read (byteOf p)) (maskOf p)).getLsbD (q % 8) = if q = p then g (s.bit q) else s.bit q) (q : Nat) :
    State.bit { s with arr := s.arr.write (byteOf p) (f (s.arr.read (byteOf p)) (maskOf p)) } q =
      if q = p then g (s.bit q) else s.bit q := by
  rw [bit_write hs]
  by_cases h : byteOf q = byteOf p
  · rw [if_pos h, hf q h]
  · rw [if_neg h, if_neg fun e : q = p => h (by rw [e])]

/-- A position below `8 * n` lies in a byte below `n`. -/
theorem byteOf_lt {p n m : Nat} (hp : p < m) (hm : m ≤ 8 * n) : byteOf p < n := by unfold byteOf; omega

@[simp] theorem andThen_ok {α β : Type} (a : α) (k : α → Except Fault β) : andThen (.ok a) k = k a := rfl

@[simp] theorem andThen_error {α β : Type} (e : Fault) (k : α → Except Fault β) : andThen (.error e) k = .error e := rfl

/-- If both parts answer, the first gave something the second went on with. -/
theorem andThen_cases {α β : Type} {r : Except Fault α} {k : α → Except Fault β} {b : β} (h : andThen r k = .ok b) :
    ∃ a, r = .ok a ∧ k a = .ok b := by
  cases r with
  | error e => cases h
  | ok a => exact ⟨a, rfl, h⟩

@[simp] theorem finish_ok (s : State) : finish (.ok s) = .next { s with pend := none } := rfl

@[simp] theorem finish_error (e : Fault) : finish (.error e) = .fault e := rfl

/-- If a command finishes, its effect answered a state, and the end of BUSY is all that is added. -/
theorem finish_next {r : Except Fault State} {t : State} (h : finish r = .next t) :
    ∃ u, r = .ok u ∧ t = { u with pend := none } := by
  cases r with
  | error e => cases h
  | ok u => exact ⟨u, rfl, by cases h; rfl⟩

theorem raiseFault_next {w : Word} {c : ErrCode} {a : Word} {s t : State} (h : raiseFault w c a s = .next t) :
    t = s.enterFault w c a := by cases h; rfl

theorem modifyBit_ok (f : Byte → Byte → Byte) {p : Nat} {s : State} (h : byteOf p < s.params.arrayBytes) :
    modifyBit f p s = .ok { s with arr := s.arr.write (byteOf p) (f (s.arr.read (byteOf p)) (maskOf p)) } := by
  simp [modifyBit, arrRead, h]

theorem testBit_ok {p : Nat} {s : State} (h : byteOf p < s.params.arrayBytes) : testBit p s = .ok (s.bit p) := by
  simp [testBit, arrRead, h, State.bit]

/-- A read-modify-write that answers has addressed an existing byte and changed only ARR. -/
theorem modifyBit_cases {f : Byte → Byte → Byte} {p : Nat} {s t : State} (h : modifyBit f p s = .ok t) :
    byteOf p < s.params.arrayBytes ∧
      t = { s with arr := s.arr.write (byteOf p) (f (s.arr.read (byteOf p)) (maskOf p)) } := by
  by_cases hb : byteOf p < s.params.arrayBytes
  · rw [modifyBit_ok f hb] at h
    exact ⟨hb, by cases h; rfl⟩
  · simp [modifyBit, arrRead, hb] at h

theorem testBit_cases {p : Nat} {s : State} {b : Bool} (h : testBit p s = .ok b) :
    byteOf p < s.params.arrayBytes ∧ b = s.bit p := by
  by_cases hb : byteOf p < s.params.arrayBytes
  · rw [testBit_ok hb] at h
    exact ⟨hb, by cases h; rfl⟩
  · simp [testBit, arrRead, hb] at h

/-- The index a round uses (R84). -/
def filterIndex (key : List Byte) (m : Word) (i : Nat) : Nat :=
  (hash32 key (BitVec.ofNat 32 i)).toNat % m.toNat

theorem roundIndex_ok (key : List Byte) {m : Word} (i : Nat) (h : m ≠ 0) :
    roundIndex key m i = .ok (filterIndex key m i) := by
  rw [roundIndex, if_neg h]; rfl

theorem roundIndex_cases {key : List Byte} {m : Word} {i x : Nat} (h : roundIndex key m i = .ok x) :
    m ≠ 0 ∧ x = filterIndex key m i := by
  by_cases hm : m = 0
  · rw [roundIndex, if_pos hm] at h; cases h
  · rw [roundIndex_ok key i hm] at h
    exact ⟨hm, by cases h; rfl⟩

theorem filterIndex_lt (key : List Byte) {m : Word} (i : Nat) (h : m ≠ 0) : filterIndex key m i < m.toNat :=
  Nat.mod_lt _ (Nat.pos_of_ne_zero fun e => h (BitVec.eq_of_toNat_eq (by simpa using e)))

/-- The insert loop changes only ARR. -/
theorem insertRounds_onlyArr {key : List Byte} {n i : Nat} {s t : State} (h : insertRounds key n i s = .ok t) :
    t = { s with arr := t.arr } := by
  induction n generalizing i s with
  | zero => cases h; rfl
  | succ n ih =>
    rw [insertRounds] at h
    obtain ⟨x, -, h⟩ := andThen_cases h
    obtain ⟨u, hu, h⟩ := andThen_cases h
    obtain ⟨-, rfl⟩ := modifyBit_cases hu
    have := ih h
    exact this

/-- The insert loop changes only ARR, keeps it canonical, only raises bits, and raises those of its rounds. -/
theorem insertRounds_cases {key : List Byte} {n i : Nat} {s t : State} (hs : s.arr.wf)
    (h : insertRounds key n i s = .ok t) :
    t = { s with arr := t.arr } ∧ t.arr.wf ∧
      (∀ k, i ≤ k → k < i + n → s.size ≠ 0 ∧ byteOf (filterIndex key s.size k) < s.params.arrayBytes) ∧
      (∀ q, t.bit q = true ↔ s.bit q = true ∨ ∃ k, i ≤ k ∧ k < i + n ∧ q = filterIndex key s.size k) ∧
      (∀ b, (∀ k, i ≤ k → k < i + n → b ≠ byteOf (filterIndex key s.size k)) → t.arr.read b = s.arr.read b) ∧
      ∀ c ∈ t.arr, c.1 < s.params.arrayBytes ∨ c ∈ s.arr := by
  induction n generalizing i s with
  | zero =>
    cases h
    refine ⟨rfl, hs, fun k h1 h2 => by omega, fun q => ?_, fun b _ => rfl, fun c hc => .inr hc⟩
    constructor
    · exact .inl
    · rintro (h | ⟨k, h1, h2, -⟩)
      · exact h
      · omega
  | succ n ih =>
    rw [insertRounds] at h
    obtain ⟨x, hx, h⟩ := andThen_cases h
    obtain ⟨hm, rfl⟩ := roundIndex_cases hx
    obtain ⟨u, hu, h⟩ := andThen_cases h
    obtain ⟨hb, rfl⟩ := modifyBit_cases hu
    obtain ⟨e1, e2, e3, e4, e5, e6⟩ := ih (memory_write_wf hs _ _) h
    refine ⟨e1, e2, fun k h1 h2 => ?_, fun q => ?_, fun b hbk => ?_, fun c hc => ?_⟩
    · rcases Nat.eq_or_lt_of_le h1 with rfl | h1
      · exact ⟨hm, hb⟩
      · exact e3 k (by omega) (by omega)
    · rw [e4, bit_modify hs (fun v m => v ||| m) (fun _ => true) _ fun q hq => by
        rw [or_mask_getLsbD _ hq, State.bit, hq]]
      constructor
      · rintro (h | ⟨k, h1, h2, rfl⟩)
        · split at h
          · next hq => exact .inr ⟨i, by omega, by omega, hq⟩
          · exact .inl h
        · exact .inr ⟨k, by omega, by omega, rfl⟩
      · rintro (h | ⟨k, h1, h2, rfl⟩)
        · left; split
          · rfl
          · exact h
        · rcases Nat.eq_or_lt_of_le h1 with rfl | h1
          · left; simp
          · exact .inr ⟨k, by omega, by omega, rfl⟩
    · rw [e5 b fun k h1 h2 => hbk k (by omega) (by omega), memory_read_write hs,
        if_neg (hbk i (by omega) (by omega))]
    · rcases e6 c hc with h | h
      · exact .inl h
      · rcases memory_mem_write h with h | h
        · left; rw [h]; exact hb
        · exact .inr h

/-- The insert loop answers when the filter has a size and its bits exist. -/
theorem insertRounds_ok (key : List Byte) (n i : Nat) {s : State} (hm : s.size ≠ 0)
    (hc : s.size.toNat ≤ 8 * s.params.arrayBytes) : ∃ t, insertRounds key n i s = .ok t := by
  induction n generalizing i s with
  | zero => exact ⟨s, rfl⟩
  | succ n ih =>
    have hb := byteOf_lt (filterIndex_lt key i hm) hc
    rw [insertRounds, roundIndex_ok key i hm, andThen_ok, modifyBit_ok _ hb, andThen_ok]
    exact ih (i + 1) (s := { s with arr := _ }) hm hc

/-- The query loop's answer. -/
theorem queryRounds_cases {key : List Byte} {s : State} {n i : Nat} {b : Bool}
    (h : queryRounds key s n i = .ok b) :
    b = true ↔ ∀ k, i ≤ k → k < i + n → s.bit (filterIndex key s.size k) = true := by
  induction n generalizing i with
  | zero =>
    cases h
    exact ⟨fun _ k h1 h2 => by omega, fun _ => rfl⟩
  | succ n ih =>
    rw [queryRounds] at h
    obtain ⟨x, hx, h⟩ := andThen_cases h
    obtain ⟨-, rfl⟩ := roundIndex_cases hx
    obtain ⟨c, hc, h⟩ := andThen_cases h
    have hi := (testBit_cases hc).2
    cases c with
    | false =>
      cases h
      exact ⟨nofun, fun hall => (hall i (by omega) (by omega)).symm.trans hi.symm |>.symm⟩
    | true =>
      rw [ih h]
      constructor
      · intro hall k h1 h2
        rcases Nat.eq_or_lt_of_le h1 with rfl | h1
        · exact hi.symm
        · exact hall k (by omega) (by omega)
      · exact fun hall k h1 h2 => hall k (by omega) (by omega)

theorem queryRounds_ok (key : List Byte) {s : State} (n i : Nat) (hm : s.size ≠ 0)
    (hc : s.size.toNat ≤ 8 * s.params.arrayBytes) : ∃ b, queryRounds key s n i = .ok b := by
  induction n generalizing i with
  | zero => exact ⟨true, rfl⟩
  | succ n ih =>
    have hb := byteOf_lt (filterIndex_lt key i hm) hc
    rw [queryRounds, roundIndex_ok key i hm, andThen_ok, testBit_ok hb, andThen_ok]
    split
    · exact ih (i + 1)
    · exact ⟨false, rfl⟩

end Sys2Proof.Machine
end

