-- ==== Sys2Proof/Laws/Exec.lean ====
section
/-! SUPPORT. One inversion law for each command: if it answers a next state, that state is one of these. -/

namespace Sys2Proof.Machine

theorem execHash_cases {s t : State} (h : execHash s = .next t) :
    s.params.keyMax < s.keyLen.toNat ∧ t = s.enterFault (encode .hash) .keyLenErr s.keyLen ∨
      s.keyLen.toNat ≤ s.params.keyMax ∧ t = { s with pend := none, result := hash32 (keyBytes s) s.arg } := by
  unfold execHash at h
  split at h
  · next hk => exact .inl ⟨hk, raiseFault_next h⟩
  · next hk =>
    rw [finish_ok] at h
    injection h with h
    exact .inr ⟨by omega, h.symm⟩

theorem execBaInit_cases {s t : State} (h : execBaInit s = .next t) :
    s.configured = true ∧ t = s.enterFault (encode .baInit) .owned s.arg ∨
      s.configured = false ∧ s.params.capBits < s.arg.toNat ∧ t = s.enterFault (encode .baInit) .badSize s.arg ∨
      s.configured = false ∧ s.arg.toNat ≤ s.params.capBits ∧
        t = { s with pend := none, arr := Memory.zeroed, size := s.arg } := by
  unfold execBaInit at h
  split at h
  · next hc => exact .inl ⟨hc, raiseFault_next h⟩
  · next hc =>
    simp only [Bool.not_eq_true] at hc
    split at h
    · next hn => exact .inr (.inl ⟨hc, hn, raiseFault_next h⟩)
    · next hn =>
      rw [finish_ok] at h
      injection h with h
      exact .inr (.inr ⟨hc, by omega, h.symm⟩)

theorem execBaTest_cases {s t : State} (h : execBaTest s = .next t) :
    s.size.toNat ≤ s.arg.toNat ∧ t = s.enterFault (encode .baTest) .bounds s.arg ∨
      s.arg.toNat < s.size.toNat ∧ t = { s with pend := none, result := boolWord (s.bit s.arg.toNat) } := by
  unfold execBaTest at h
  split at h
  · next hb => exact .inl ⟨BitVec.le_def.mp hb, raiseFault_next h⟩
  · next hb =>
    rw [BitVec.le_def] at hb
    obtain ⟨u, hu, rfl⟩ := finish_next h
    obtain ⟨b, ht, hu⟩ := andThen_cases hu
    obtain ⟨-, rfl⟩ := testBit_cases ht
    injection hu with hu
    exact .inr ⟨by omega, by rw [← hu]⟩

theorem mutateBit_cases {w : Word} {f : Byte → Byte → Byte} {s t : State} (h : mutateBit w f s = .next t) :
    s.configured = true ∧ t = s.enterFault w .owned s.arg ∨
      s.configured = false ∧ s.size.toNat ≤ s.arg.toNat ∧ t = s.enterFault w .bounds s.arg ∨
      s.configured = false ∧ s.arg.toNat < s.size.toNat ∧ byteOf s.arg.toNat < s.params.arrayBytes ∧
        t = { s with
              pend := none
              arr := s.arr.write (byteOf s.arg.toNat) (f (s.arr.read (byteOf s.arg.toNat)) (maskOf s.arg.toNat)) } := by
  unfold mutateBit at h
  split at h
  · next hc => exact .inl ⟨hc, raiseFault_next h⟩
  · next hc =>
    simp only [Bool.not_eq_true] at hc
    split at h
    · next hb => exact .inr (.inl ⟨hc, BitVec.le_def.mp hb, raiseFault_next h⟩)
    · next hb =>
      rw [BitVec.le_def] at hb
      obtain ⟨u, hu, rfl⟩ := finish_next h
      obtain ⟨h1, rfl⟩ := modifyBit_cases hu
      exact .inr (.inr ⟨hc, by omega, h1, rfl⟩)

/-- The three mutating bit commands answer when the addressed byte exists. -/
theorem mutateBit_ok {w : Word} (f : Byte → Byte → Byte) {s : State} (hc : s.configured = false)
    (hb : s.arg.toNat < s.size.toNat) (hs : s.size.toNat ≤ 8 * s.params.arrayBytes) :
    mutateBit w f s = .next
      { s with
        pend := none
        arr := s.arr.write (byteOf s.arg.toNat) (f (s.arr.read (byteOf s.arg.toNat)) (maskOf s.arg.toNat)) } := by
  unfold mutateBit
  rw [if_neg (by simp [hc]), if_neg (by rw [BitVec.le_def]; omega), modifyBit_ok f (byteOf_lt hb hs), finish_ok]

theorem execBfConfig_cases {s t : State} (h : execBfConfig s = .next t) :
    s.configured = true ∧ t = s.enterFault (encode .bfConfig) .alreadyConfigured 0 ∨
      s.configured = false ∧ (s.cfgM = 0 ∨ s.params.capBits < s.cfgM.toNat) ∧
        t = s.enterFault (encode .bfConfig) .badConfig s.cfgM ∨
      s.configured = false ∧ s.cfgK = 0 ∧ t = s.enterFault (encode .bfConfig) .badConfig s.cfgK ∨
      s.configured = false ∧ s.cfgM ≠ 0 ∧ s.cfgM.toNat ≤ s.params.capBits ∧ s.cfgK ≠ 0 ∧
        t = { s with pend := none, arr := Memory.zeroed, size := s.cfgM, filterK := s.cfgK, configured := true } := by
  unfold execBfConfig at h
  split at h
  · next hc => exact .inl ⟨hc, raiseFault_next h⟩
  · next hc =>
    simp only [Bool.not_eq_true] at hc
    split at h
    · next hm => exact .inr (.inl ⟨hc, hm, raiseFault_next h⟩)
    · next hm =>
      split at h
      · next hk => exact .inr (.inr (.inl ⟨hc, hk, raiseFault_next h⟩))
      · next hk =>
        rw [finish_ok] at h
        injection h with h
        rw [not_or] at hm
        exact .inr (.inr (.inr ⟨hc, hm.1, by omega, hk, h.symm⟩))

theorem execBfInsert_cases {s t : State} (h : execBfInsert s = .next t) :
    s.configured = false ∧ t = s.enterFault (encode .bfInsert) .notConfigured 0 ∨
      s.configured = true ∧ s.params.keyMax < s.keyLen.toNat ∧
        t = s.enterFault (encode .bfInsert) .keyLenErr s.keyLen ∨
      s.configured = true ∧ s.keyLen.toNat ≤ s.params.keyMax ∧
        ∃ u, insertRounds (keyBytes s) s.filterK.toNat 0 s = .ok u ∧ t = { u with pend := none } := by
  unfold execBfInsert at h
  split at h
  · next hc => exact .inl ⟨hc, raiseFault_next h⟩
  · next hc =>
    simp only [Bool.not_eq_false] at hc
    split at h
    · next hk => exact .inr (.inl ⟨hc, hk, raiseFault_next h⟩)
    · next hk => exact .inr (.inr ⟨hc, by omega, finish_next h⟩)

theorem execBfQuery_cases {s t : State} (h : execBfQuery s = .next t) :
    s.configured = false ∧ t = s.enterFault (encode .bfQuery) .notConfigured 0 ∨
      s.configured = true ∧ s.params.keyMax < s.keyLen.toNat ∧
        t = s.enterFault (encode .bfQuery) .keyLenErr s.keyLen ∨
      s.configured = true ∧ s.keyLen.toNat ≤ s.params.keyMax ∧
        ∃ b, queryRounds (keyBytes s) s s.filterK.toNat 0 = .ok b ∧
          t = { s with pend := none, result := boolWord b } := by
  unfold execBfQuery at h
  split at h
  · next hc => exact .inl ⟨hc, raiseFault_next h⟩
  · next hc =>
    simp only [Bool.not_eq_false] at hc
    split at h
    · next hk => exact .inr (.inl ⟨hc, hk, raiseFault_next h⟩)
    · next hk =>
      obtain ⟨u, hu, rfl⟩ := finish_next h
      obtain ⟨b, hq, hu⟩ := andThen_cases hu
      injection hu with hu
      exact .inr (.inr ⟨hc, by omega, b, hq, by rw [← hu]⟩)

theorem execSoftReset_cases {s t : State} (h : execSoftReset s = .next t) : t = s.resetBlock := by
  injection h with h
  exact h.symm

/-- Everything a queued command can do: enter the faulted state, or end with new values in RESULT, SIZE, FILTER_K,
CONFIGURED and ARR alone. -/
theorem exec_cases {i : Instr} {s t : State} (hi : i ≠ .softReset) (h : exec i s = .next t) :
    (∃ c a, c ≠ ErrCode.noFault ∧ t = s.enterFault (encode i) c a) ∨
      t = { s with
            pend := none, result := t.result, size := t.size, filterK := t.filterK, configured := t.configured
            arr := t.arr } := by
  cases i with
  | hash =>
    rcases execHash_cases h with ⟨-, rfl⟩ | ⟨-, rfl⟩
    · exact .inl ⟨_, _, by decide, rfl⟩
    · exact .inr rfl
  | baInit =>
    rcases execBaInit_cases h with ⟨-, rfl⟩ | ⟨-, -, rfl⟩ | ⟨-, -, rfl⟩
    · exact .inl ⟨_, _, by decide, rfl⟩
    · exact .inl ⟨_, _, by decide, rfl⟩
    · exact .inr rfl
  | baTest =>
    rcases execBaTest_cases h with ⟨-, rfl⟩ | ⟨-, rfl⟩
    · exact .inl ⟨_, _, by decide, rfl⟩
    · exact .inr rfl
  | baSet =>
    rcases mutateBit_cases h with ⟨-, rfl⟩ | ⟨-, -, rfl⟩ | ⟨-, -, -, rfl⟩
    · exact .inl ⟨_, _, by decide, rfl⟩
    · exact .inl ⟨_, _, by decide, rfl⟩
    · exact .inr rfl
  | baClear =>
    rcases mutateBit_cases h with ⟨-, rfl⟩ | ⟨-, -, rfl⟩ | ⟨-, -, -, rfl⟩
    · exact .inl ⟨_, _, by decide, rfl⟩
    · exact .inl ⟨_, _, by decide, rfl⟩
    · exact .inr rfl
  | baFlip =>
    rcases mutateBit_cases h with ⟨-, rfl⟩ | ⟨-, -, rfl⟩ | ⟨-, -, -, rfl⟩
    · exact .inl ⟨_, _, by decide, rfl⟩
    · exact .inl ⟨_, _, by decide, rfl⟩
    · exact .inr rfl
  | bfConfig =>
    rcases execBfConfig_cases h with ⟨-, rfl⟩ | ⟨-, -, rfl⟩ | ⟨-, -, rfl⟩ | ⟨-, -, -, -, rfl⟩
    · exact .inl ⟨_, _, by decide, rfl⟩
    · exact .inl ⟨_, _, by decide, rfl⟩
    · exact .inl ⟨_, _, by decide, rfl⟩
    · exact .inr rfl
  | bfInsert =>
    rcases execBfInsert_cases h with ⟨-, rfl⟩ | ⟨-, -, rfl⟩ | ⟨-, -, u, hu, rfl⟩
    · exact .inl ⟨_, _, by decide, rfl⟩
    · exact .inl ⟨_, _, by decide, rfl⟩
    · have hu := insertRounds_onlyArr hu
      right
      rw [hu]
  | bfQuery =>
    rcases execBfQuery_cases h with ⟨-, rfl⟩ | ⟨-, -, rfl⟩ | ⟨-, -, b, -, rfl⟩
    · exact .inl ⟨_, _, by decide, rfl⟩
    · exact .inl ⟨_, _, by decide, rfl⟩
    · exact .inr rfl
  | softReset => exact absurd rfl hi

end Sys2Proof.Machine
end

