-- ==== Sys2Proof/Laws/Invariant.lean ====
section
/-! SUPPORT. The invariant survives each kind of state change a step is made of. -/

namespace Sys2Proof.Machine

theorem Invariant.enterFault {s : State} (h : Invariant s) (w : Word) {c : ErrCode} (hc : c ≠ .noFault) (a : Word) :
    Invariant (s.enterFault w c a) where
  params_legal := h.params_legal
  key_wf := h.key_wf
  key_inside := h.key_inside
  arr_wf := h.arr_wf
  arr_inside := h.arr_inside
  size_le_cap := h.size_le_cap
  padding_zero := h.padding_zero
  configured_sized := h.configured_sized
  unconfigured_k := h.unconfigured_k
  code_iff_fault := by simp [hc]
  no_fault_clear := by simp
  fault_idle := by simp
  pend_not_reset := by simp

/-- A completion that writes RESULT and ARR, for an ARR that is canonical, inside the storage and zero in its padding. -/
theorem Invariant.completion {s : State} (h : Invariant s) (r : Word) {m : Memory} (hw : m.wf)
    (hi : ∀ c ∈ m, c.1 < s.params.arrayBytes)
    (hp : ∀ pos, s.size.toNat ≤ pos → (m.read (byteOf pos)).getLsbD (pos % 8) = false) :
    Invariant { s with pend := none, result := r, arr := m } where
  params_legal := h.params_legal
  key_wf := h.key_wf
  key_inside := h.key_inside
  arr_wf := hw
  arr_inside := hi
  size_le_cap := h.size_le_cap
  padding_zero := hp
  configured_sized := h.configured_sized
  unconfigured_k := h.unconfigured_k
  code_iff_fault := h.code_iff_fault
  no_fault_clear := h.no_fault_clear
  fault_idle := by simp
  pend_not_reset := by simp

/-- A completion that zeroes ARR and writes SIZE, FILTER_K and CONFIGURED. -/
theorem Invariant.zeroed {s : State} (h : Invariant s) {n k : Word} {c : Bool} (hn : n.toNat ≤ s.params.capBits)
    (h1 : c = true → n ≠ 0 ∧ k ≠ 0) (h2 : c = false → k = 0) :
    Invariant { s with pend := none, arr := Memory.zeroed, size := n, filterK := k, configured := c } where
  params_legal := h.params_legal
  key_wf := h.key_wf
  key_inside := h.key_inside
  arr_wf := memory_wf_nil
  arr_inside := nofun
  size_le_cap := hn
  padding_zero := fun _ _ => by simp [State.bit]
  configured_sized := h1
  unconfigured_k := h2
  code_iff_fault := h.code_iff_fault
  no_fault_clear := h.no_fault_clear
  fault_idle := by simp
  pend_not_reset := by simp

/-- What HOST may write, and the HOST side. -/
theorem Invariant.hostWrites {s : State} (h : Invariant s) {p : Option Word} (hp1 : s.fault = true → p = none)
    (hp2 : p ≠ some (encode .softReset)) (o : Bool) (a kl m k : Word) {ky : Memory} (hk1 : ky.wf)
    (hk2 : ∀ c ∈ ky, c.1 < s.params.keyMax) (ins : List Input) (l : List Record) (n : Nat) :
    Invariant
      { s with
        pend := p, ovr := o, arg := a, keyLen := kl, cfgM := m, cfgK := k, key := ky, inputs := ins, log := l
        draws := n } where
  params_legal := h.params_legal
  key_wf := hk1
  key_inside := hk2
  arr_wf := h.arr_wf
  arr_inside := h.arr_inside
  size_le_cap := h.size_le_cap
  padding_zero := h.padding_zero
  configured_sized := h.configured_sized
  unconfigured_k := h.unconfigured_k
  code_iff_fault := h.code_iff_fault
  no_fault_clear := h.no_fault_clear
  fault_idle := hp1
  pend_not_reset := hp2

end Sys2Proof.Machine
end

