-- ==== Sys2Proof/Laws/PerInstr.lean ====
section
/-! SUPPORT. Statements about every command as syntax, made command by command. -/

namespace Sys2Proof.Laws.RoundTrip

/-- The command is well formed, its word is a legal format-C word with the command's row of the opcode map (R51, R53),
and the table decoder reads that word as the command. -/
def Statement (i : Instr) : Prop :=
  i.wellFormed = true ∧ (toFormatC (encode i)).wellFormed = true ∧ (opcode i, i) ∈ opcodeMap ∧
    decodeTableWord 32 (encode i).toNat = some i

theorem hash : Statement .hash := by unfold Statement; decide

theorem baInit : Statement .baInit := by unfold Statement; decide

theorem baTest : Statement .baTest := by unfold Statement; decide

theorem baSet : Statement .baSet := by unfold Statement; decide

theorem baClear : Statement .baClear := by unfold Statement; decide

theorem baFlip : Statement .baFlip := by unfold Statement; decide

theorem bfConfig : Statement .bfConfig := by unfold Statement; decide

theorem bfInsert : Statement .bfInsert := by unfold Statement; decide

theorem bfQuery : Statement .bfQuery := by unfold Statement; decide

theorem softReset : Statement .softReset := by unfold Statement; decide

end Sys2Proof.Laws.RoundTrip
end

