-- ==== Sys2Proof/Laws/Step.lean ====
section
/-! SUPPORT. What one step can do: the completion of the pending word, or one input from the outside, which short of a
reset touches only what HOST may write. -/

namespace Sys2Proof.Machine

theorem outsideMoves_none {s : State} (h : s.pend = none) : outsideMoves s = true := by
  simp [outsideMoves, State.busy, h]

/-- Where the outside moves, the step is the next input. -/
theorem step_outside {s : State} (h : outsideMoves s = true) : step s = nextInput s := by
  unfold step
  split
  · next w hw =>
    rw [if_pos]
    simpa [outsideMoves, State.busy, hw] using h
  · rfl

/-- Where it does not, a command is pending and the step completes it. -/
theorem step_core {s : State} (h : outsideMoves s = false) : ∃ w, s.pend = some w ∧ step s = completePending w s := by
  cases hw : s.pend with
  | none => rw [outsideMoves_none hw] at h; cases h
  | some w =>
    refine ⟨w, rfl, ?_⟩
    simp only [step, hw]
    rw [if_neg]
    simpa [outsideMoves, State.busy, hw] using h

/-- A completion runs a queued command or faults ILLEGAL_CMD. -/
theorem completePending_cases {w : Word} {s t : State} (h : completePending w s = .next t) :
    (∃ i, i ≠ .softReset ∧ decodePending w = .ok i ∧ exec i s = .next t) ∨
      t = s.enterFault w .illegalCmd w := by
  unfold completePending at h
  split at h
  · next i hi => exact .inl ⟨i, (decodePending_ok hi).2, hi, h⟩
  · exact .inr (raiseFault_next h)

/-- Every step is one of: nothing at all, one input, one completion. -/
theorem step_cases {s t : State} (h : step s = .next t) :
    (outsideMoves s = true ∧ s.inputs = [] ∧ t = s) ∨
      (outsideMoves s = true ∧ ∃ x rest, s.inputs = x :: rest ∧
        outsideEvent x.event { s with inputs := rest } = .next t) ∨
      (outsideMoves s = false ∧ ∃ w, s.pend = some w ∧ completePending w s = .next t) := by
  cases ho : outsideMoves s with
  | false =>
    obtain ⟨w, hw, e⟩ := step_core ho
    exact .inr (.inr ⟨rfl, w, hw, e ▸ h⟩)
  | true =>
    rw [step_outside ho, nextInput] at h
    split at h
    · next hin =>
      injection h with h
      exact .inl ⟨rfl, hin, h.symm⟩
    · next x rest hin => exact .inr (.inl ⟨rfl, x, rest, hin, h⟩)

/-- The register at an offset stands at that offset. -/
theorem regAt_offset {n : Nat} {r : Reg} (h : regAt n = some r) : n = regOffset r := by
  unfold regAt at h
  repeat' split at h
  all_goals first
    | (cases h; rfl)
    | cases h

theorem regAt_regOffset (r : Reg) : regAt (regOffset r) = some r := by cases r <;> rfl

theorem decodeOffset_reg {p : Params} {a : Word} {r : Reg} (h : decodeOffset p a = .ok (.reg r)) :
    a.toNat = regOffset r := by
  unfold decodeOffset at h
  split at h
  · split at h
    · next r' hr =>
      injection h with h
      injection h with h
      exact h ▸ regAt_offset hr
    · repeat' split at h
      all_goals cases h
  · cases h

theorem decodeOffset_keyWord {p : Params} (hp : p.keyMax % 4 = 0) {a : Word} {j : Nat}
    (h : decodeOffset p a = .ok (.keyWord j)) : 4 * j + 3 < p.keyMax := by
  unfold decodeOffset at h
  split at h
  · split at h
    · cases h
    · split at h
      · next hr =>
        injection h with h
        injection h with h
        unfold keyWindowBase at *
        omega
      · split at h <;> cases h
  · cases h

/-- A HOST read changes the log and, at most, the count of free draws. -/
theorem hostRead_cases (off : Word) (s : State) :
    ∃ r n, hostRead off s = { s with log := { access := .read off, response := r } :: s.log, draws := n } := by
  unfold hostRead
  split
  · exact ⟨_, _, rfl⟩
  · next tg _ =>
    cases tg with
    | reg r =>
      simp only [readTarget, readReg]
      split <;> exact ⟨_, _, rfl⟩
    | keyWord j => exact ⟨_, _, rfl⟩
    | rawWord w =>
      simp only [readTarget, readRaw]
      split <;> exact ⟨_, _, rfl⟩

/-- What a write short of SOFT_RESET can do, HOST's log apart: be dropped with OVR, be ignored, issue a word, store an
operand, or store a key word. The last three need BUSY = 0. -/
theorem writeTarget_cases (tg : Target) (d : Word) (s : State) :
    (s.pend ≠ none ∧ writeTarget tg d s = { s with ovr := true }) ∨ writeTarget tg d s = s ∨
      (s.pend = none ∧ s.fault = false ∧ tg = .reg .cmd ∧ writeTarget tg d s = { s with pend := some d }) ∨
      (s.pend = none ∧ ∃ a k m c, writeTarget tg d s = { s with arg := a, keyLen := k, cfgM := m, cfgK := c }) ∨
      (s.pend = none ∧ ∃ j, tg = .keyWord j ∧ writeTarget tg d s = writeKeyWord j d s) := by
  cases hb : s.busy with
  | true =>
    have hp := (busy_eq_true s).mp hb
    cases tg with
    | reg r =>
      cases r <;> simp only [writeTarget, issue, isOperand, hb] <;>
        first
          | exact .inl ⟨hp, rfl⟩
          | exact .inr (.inl rfl)
    | keyWord j => simp only [writeTarget, hb]; exact .inl ⟨hp, rfl⟩
    | rawWord w => exact .inr (.inl rfl)
  | false =>
    have hp := (busy_eq_false s).mp hb
    cases tg with
    | reg r =>
      cases r with
      | cmd =>
        cases hf : s.fault with
        | true => exact .inr (.inl (by simp [writeTarget, issue, hb, hf]))
        | false => exact .inr (.inr (.inl ⟨hp, rfl, rfl, by simp [writeTarget, issue, hb, hf]⟩))
      | arg => exact .inr (.inr (.inr (.inl ⟨hp, d, s.keyLen, s.cfgM, s.cfgK, by simp [writeTarget, isOperand, hb, writeOperand]⟩)))
      | keyLen => exact .inr (.inr (.inr (.inl ⟨hp, s.arg, d, s.cfgM, s.cfgK, by simp [writeTarget, isOperand, hb, writeOperand]⟩)))
      | cfgM => exact .inr (.inr (.inr (.inl ⟨hp, s.arg, s.keyLen, d, s.cfgK, by simp [writeTarget, isOperand, hb, writeOperand]⟩)))
      | cfgK => exact .inr (.inr (.inr (.inl ⟨hp, s.arg, s.keyLen, s.cfgM, d, by simp [writeTarget, isOperand, hb, writeOperand]⟩)))
      | status | result | size | filterK | errArg | capBits | capKey =>
        exact .inr (.inl (by simp [writeTarget, isOperand]))
    | keyWord j => exact .inr (.inr (.inr (.inr ⟨hp, j, rfl, by simp [writeTarget, hb]⟩)))
    | rawWord w => exact .inr (.inl rfl)

/-- What one input from the outside can do. -/
theorem outsideEvent_cases {e : Event} {s t : State} (h : outsideEvent e s = .next t) :
    (isResetEvent e = true ∧ ∃ l, t = { s.resetBlock with log := l }) ∨
      (isResetEvent e = false ∧
        ((∃ l n, t = { s with log := l, draws := n }) ∨
          ∃ off d tg l, e = .access (.write off d) ∧ decodeOffset s.params off = .ok tg ∧
            (tg = .reg .cmd → d ≠ encode .softReset) ∧ t = { writeTarget tg d s with log := l })) := by
  cases e with
  | hwReset =>
    injection h with h
    exact .inl ⟨rfl, s.log, h ▸ rfl⟩
  | access a =>
    cases a with
    | read off =>
      injection h with h
      obtain ⟨r, n, e⟩ := hostRead_cases off s
      exact .inr ⟨rfl, .inl ⟨_, n, h ▸ e⟩⟩
    | write off d =>
      simp only [outsideEvent, hostWrite] at h
      split at h
      · next b hb =>
        injection h with h
        refine .inr ⟨?_, .inl ⟨_, s.draws, h.symm⟩⟩
        simp only [isResetEvent, Bool.and_eq_false_imp, beq_iff_eq]
        rintro rfl
        simp [decodeOffset, regAt] at hb
      · next tg htg =>
        split at h
        · next hr =>
          obtain ⟨rfl, rfl⟩ := hr
          have h0 : off = 0 := BitVec.eq_of_toNat_eq (decodeOffset_reg htg)
          subst h0
          injection h with h
          exact .inl ⟨by simp [isResetEvent], _, h.symm⟩
        · next hr =>
          injection h with h
          refine .inr ⟨?_, .inr ⟨off, d, tg, _, rfl, htg, fun e1 e2 => hr ⟨e1, e2⟩, h.symm⟩⟩
          simp only [isResetEvent, Bool.and_eq_false_imp, beq_iff_eq, beq_eq_false_iff_ne]
          rintro rfl rfl
          refine hr ⟨?_, rfl⟩
          simp [decodeOffset, regAt] at htg
          exact htg.symm

end Sys2Proof.Machine
end

