-- ==== Sys2Proof/Laws/Run.lean ====
section
/-! SUPPORT. Running the machine step by step, and that a run comes to its last access (R126). -/

namespace Sys2Proof.Machine

theorem core_run_zero (s : State) : core.run 0 s = .next s := rfl

/-- A run whose first step answers a next state goes on from it. -/
theorem run_succ (M : Host.Core) {s t : M.State} (h : M.step s = .next t) (n : Nat) : M.run (n + 1) s = M.run n t := by
  simp only [Host.Core.run, h]

/-- `run_succ` for this machine. -/
theorem core_run_succ {s t : State} (h : step s = .next t) (n : Nat) : core.run (n + 1) s = core.run n t :=
  run_succ core h n

/-- A completion leaves no command pending and takes no input. -/
theorem completePending_clears {w : Word} {s t : State} (h : completePending w s = .next t) :
    t.pend = none ∧ t.inputs = s.inputs := by
  rcases completePending_cases h with ⟨i, hi, -, hex⟩ | rfl
  · rcases exec_cases hi hex with ⟨c, a, -, rfl⟩ | e
    · exact ⟨rfl, rfl⟩
    · rw [e]; exact ⟨rfl, rfl⟩
  · exact ⟨rfl, rfl⟩

/-- An event from the outside leaves the later inputs as they are. -/
theorem outsideEvent_inputs {e : Event} {s t : State} (h : outsideEvent e s = .next t) : t.inputs = s.inputs := by
  rcases outsideEvent_cases h with ⟨-, l, rfl⟩ | ⟨-, ⟨l, n, rfl⟩ | ⟨off, d, tg, l, -, -, -, rfl⟩⟩
  · rfl
  · rfl
  · rcases writeTarget_cases tg d s with ⟨-, e⟩ | e | ⟨-, -, -, e⟩ | ⟨-, a, k, m, c, e⟩ | ⟨-, j, -, e⟩ <;>
      simp only [e, writeKeyWord]

/-- At most how many steps are left to do: two for each input, one for a pending command. -/
def stepsLeft (s : State) : Nat := 2 * s.inputs.length + if s.pend = none then 0 else 1

/-- Some HOST access is still queued. -/
def accessLeft (s : State) : Bool := s.inputs.any fun x => isAccess x.event

/-- Before the last access every step uses up something, and leaves the last access queued. -/
theorem step_toward_end {s t : State} (ha : accessLeft s = true) (h : step s = .next t) :
    stepsLeft t < stepsLeft s ∧ (makesLastAccess s = false → accessLeft t = true) := by
  rcases step_cases h with ⟨-, hin, -⟩ | ⟨ho, x, rest, hin, he⟩ | ⟨-, w, hw, hc⟩
  · simp [accessLeft, hin] at ha
  · have e : t.inputs = rest := outsideEvent_inputs he
    constructor
    · rw [stepsLeft, stepsLeft, e, hin, List.length_cons]
      split_ifs <;> omega
    · intro hl
      simp only [makesLastAccess, hin, ho, Bool.true_and] at hl
      simp only [accessLeft, hin, List.any_cons] at ha
      rw [accessLeft, e]
      cases hx : isAccess x.event with
      | false => simpa [hx] using ha
      | true => simpa [hx, Bool.and_eq_false_iff] using hl
  · obtain ⟨hp, hi⟩ := completePending_clears hc
    refine ⟨?_, fun _ => by rwa [accessLeft, hi]⟩
    rw [stepsLeft, stepsLeft, hi, if_pos hp, if_neg (by rw [hw]; exact Option.some_ne_none w)]
    omega

/-- A run with an access queued comes to its last access within `stepsLeft` steps: more make no difference, so the bound of
`finalState` is enough. -/
theorem runToEnd_enough {n : Nat} {s : State} (ha : accessLeft s = true) (hn : stepsLeft s ≤ n) (k : Nat) :
    runToEnd (n + k) s = runToEnd n s := by
  induction n generalizing s with
  | zero =>
    cases hi : s.inputs with
    | nil => simp [accessLeft, hi] at ha
    | cons x rest => simp [stepsLeft, hi] at hn
  | succ n ih =>
    rw [Nat.succ_add_eq_add_succ]
    show runToEnd ((n + k) + 1) s = _
    simp only [runToEnd]
    split
    · next t ht =>
      obtain ⟨h1, h2⟩ := step_toward_end ha ht
      cases hl : makesLastAccess s with
      | true => rfl
      | false => exact ih (h2 hl) (by omega)
    · rfl
    · rfl

theorem stepsLeft_le (s : State) : stepsLeft s ≤ 2 * s.inputs.length + 1 := by
  rw [stepsLeft]
  split_ifs <;> omega

end Sys2Proof.Machine
end

