-- ==== Sys2Proof/Laws/Units.lean ====
section
/-! SUPPORT. Runs of the hash unit (R69) and of the sequencer (R89). -/

namespace Sys2Proof.Machine

theorem hashUnitRun_add (key : List Byte) (m n : Nat) (u : HashUnit) :
    hashUnitRun key (m + n) u = hashUnitRun key n (hashUnitRun key m u) := by
  induction m generalizing u with
  | zero => rw [Nat.zero_add]; rfl
  | succ m ih => rw [Nat.succ_add_eq_add_succ]; exact ih _

/-- While full chunks are left the unit stays in BODY, with the accumulator of the chunks done. -/
theorem hashUnitRun_body (key : List Byte) (seed : Word) (n : Nat) (hn : n ≤ key.length / 4) :
    hashUnitRun key n (hashUnitStart seed) =
      { phase := .body
        h := (List.range n).foldl (fun h j => chunkRound h (memReadLE key (4 * j) 4)) seed
        j := n } := by
  induction n with
  | zero => rfl
  | succ n ih =>
    rw [hashUnitRun_add, ih (by omega)]
    simp only [hashUnitRun, hashUnitStep]
    rw [if_pos (by omega), List.range_succ, List.foldl_append]
    rfl

theorem sequencerRun_add (c : SeqCommand) (key : List Byte) (m : Word) (k a b : Nat) (q : Sequencer) :
    sequencerRun c key m k (a + b) q = sequencerRun c key m k b (sequencerRun c key m k a q) := by
  induction a generalizing q with
  | zero => rw [Nat.zero_add]; rfl
  | succ a ih => rw [Nat.succ_add_eq_add_succ]; exact ih _

end Sys2Proof.Machine
end

