-- ==== Sys2Proof/Laws/Window.lean ====
section
/-! SUPPORT. The windows: legal parameters, offsets beyond the registers, little-endian words and the key bytes. -/

namespace Sys2Proof.Machine

/-- The bounds of R8, for arithmetic. -/
theorem legal_cases {p : Params} (h : p.legal = true) :
    p.keyMax % 4 = 0 ∧ 4 ≤ p.keyMax ∧ p.keyMax ≤ 4096 ∧
      p.arrayBytes % 4 = 0 ∧ 4 ≤ p.arrayBytes ∧ p.arrayBytes ≤ 2 ^ 28 := by
  simp [Params.legal, Params.keyMaxLegal, Params.arrayBytesLegal] at h
  omega

/-- No register stands beyond 0x2C. -/
theorem regAt_none {n : Nat} (h : 0x30 ≤ n) : regAt n = none := by
  cases hr : regAt n with
  | none => rfl
  | some r =>
    have := regAt_offset hr
    cases r <;> simp [regOffset] at this <;> omega

/-- `a[1:0]` is the remainder by 4. -/
theorem low_bits_toNat (a : Word) : (a.extractLsb' 0 2).toNat = a.toNat % 4 := by
  simp [BitVec.extractLsb'_toNat]

/-- Four little-endian bytes, side by side. -/
theorem leWord_four (b0 b1 b2 b3 : Byte) : leWord [b0, b1, b2, b3] = (b3 ++ b2 ++ b1 ++ b0 : BitVec 32) := by
  apply BitVec.eq_of_getLsbD_eq
  intro i hi
  simp only [leWord, BitVec.getLsbD_or, BitVec.getLsbD_setWidth, BitVec.getLsbD_shiftLeft, BitVec.getLsbD_append]
  interval_cases i <;> simp

/-- Byte `i` of a little-endian word of four. -/
theorem leWord_four_byte (b : Nat → Byte) (i : Nat) (hi : i < 4) :
    (leWord [b 0, b 1, b 2, b 3]).extractLsb' (8 * i) 8 = b i := by
  rw [leWord_four]
  apply BitVec.eq_of_getLsbD_eq
  intro k hk
  simp only [BitVec.getLsbD_extractLsb', BitVec.getLsbD_append]
  interval_cases i <;> interval_cases k <;> simp

/-- A word is put together again from its bytes. -/
theorem leWord_leByte (d : Word) : leWord [leByte d 0, leByte d 1, leByte d 2, leByte d 3] = d := by
  rw [leWord_four]
  apply BitVec.eq_of_getLsbD_eq
  intro i hi
  simp only [leByte, BitVec.getLsbD_append, BitVec.getLsbD_extractLsb']
  interval_cases i <;> simp

/-- Every key byte after a key-window write. -/
theorem writeKeyWord_read {s : State} (hw : s.key.wf) (j : Nat) (d : Word) (a : Nat) :
    (writeKeyWord j d s).key.read a =
      if a = 4 * j + 3 then leByte d 3
      else if a = 4 * j + 2 then leByte d 2
      else if a = 4 * j + 1 then leByte d 1
      else if a = 4 * j then leByte d 0
      else s.key.read a := by
  have h0 := memory_write_wf hw (4 * j) (leByte d 0)
  have h1 := memory_write_wf h0 (4 * j + 1) (leByte d 1)
  have h2 := memory_write_wf h1 (4 * j + 2) (leByte d 2)
  simp only [writeKeyWord, memory_read_write h2, memory_read_write h1, memory_read_write h0, memory_read_write hw]

/-- The key of a command depends on the bytes below KEY_LEN only. -/
theorem keyBytes_congr {s u : State} (hl : u.keyLen = s.keyLen)
    (h : ∀ a, a < s.keyLen.toNat → u.key.read a = s.key.read a) : keyBytes u = keyBytes s := by
  unfold keyBytes keyPrefix
  rw [hl]
  exact List.map_congr_left fun a ha => h a (List.mem_range.mp ha)

/-- A raw-window word's bytes. -/
theorem rawWordAt_byte (s : State) (w i : Nat) (hi : i < 4) :
    (rawWordAt w s).extractLsb' (8 * i) 8 = rawByte (4 * w + i) s :=
  leWord_four_byte (fun i => rawByte (4 * w + i) s) i hi

theorem boolWord_eq (b : Bool) : boolWord b = if b then 1 else 0 := by cases b <;> rfl

end Sys2Proof.Machine
end

