-- ==== Sys2Proof/Machine/HostProgram.lean ====
section
/-! DEFINITION. The notation of host programs (spec/30_encoding.md R57, R58) and how one is handed to the machine. HOST
runs its program; the block only sees its accesses. -/

namespace Sys2Proof.Machine

/-- One line of a host program: the three forms of R57, then the pseudo-instructions of R58. -/
inductive HostLine where
  | wr (off value : Word)
  | rd (off : Word)
  /-- "repeat `rd STATUS` until bit 0 (BUSY) reads 0" (R57). -/
  | poll
  | cmd (i : Instr)
  | key (bytes : List Byte)
  | hash (seed : Word)
  | baInit (n : Word)
  | baTest (pos : Word)
  | baSet (pos : Word)
  | baClear (pos : Word)
  | baFlip (pos : Word)
  | bfConfig (m k : Word)
  | bfInsert
  | bfQuery
  | reset
deriving DecidableEq, Repr

/-- The offset of a register, as HOST writes it (R17). -/
def regOff (r : Reg) : Word := BitVec.ofNat 32 (regOffset r)

/-- The offset of key-window word `j`, `KEY+4j` (R38, R57). -/
def keyOff (j : Nat) : Word := BitVec.ofNat 32 (keyWindowBase + 4 * j)

/-- The offset of raw-window word `w`, `RAW+4w` (R40, R57). -/
def rawOff (w : Nat) : Word := BitVec.ofNat 32 (rawWindowBase + 4 * w)

/-- A poll as its last STATUS read, the one "after the completion of the pending command" (R57); the reads a host makes
while BUSY = 1 may be put before it (DEDUCED, notes/assumptions/13.md). -/
def pollAccesses : List Access := [.read (regOff .status)]

/-- `cmd X` is `wr CMD, X ; poll` (R58). -/
def cmdAccesses (i : Instr) : List Access := .write (regOff .cmd) (encode i) :: pollAccesses

/-- `wr ARG, v ; cmd X` (R58). -/
def argCmdAccesses (v : Word) (i : Instr) : List Access := .write (regOff .arg) v :: cmdAccesses i

/-- `key [b0, b1, ...]`: the words covering the key, bytes beyond its length written 0, then KEY_LEN (R58, R39). -/
def keyAccesses (bytes : List Byte) : List Access :=
  (List.range ((bytes.length + 3) / 4)).map (fun j => .write (keyOff j) (memReadLE bytes (4 * j) 4)) ++
    [.write (regOff .keyLen) (BitVec.ofNat 32 bytes.length)]

/-- The accesses a line stands for (R57, R58). -/
def lineAccesses : HostLine → List Access
  | .wr off v => [.write off v]
  | .rd off => [.read off]
  | .poll => pollAccesses
  | .cmd i => cmdAccesses i
  | .key bytes => keyAccesses bytes
  | .hash seed => argCmdAccesses seed .hash ++ [.read (regOff .result)]
  | .baInit n => argCmdAccesses n .baInit
  | .baTest pos => argCmdAccesses pos .baTest ++ [.read (regOff .result)]
  | .baSet pos => argCmdAccesses pos .baSet
  | .baClear pos => argCmdAccesses pos .baClear
  | .baFlip pos => argCmdAccesses pos .baFlip
  | .bfConfig m k => .write (regOff .cfgM) m :: .write (regOff .cfgK) k :: cmdAccesses .bfConfig
  | .bfInsert => cmdAccesses .bfInsert
  | .bfQuery => cmdAccesses .bfQuery ++ [.read (regOff .result)]
  | .reset => cmdAccesses .softReset

/-- The encoding of a program, "the list of triples `(R|W, offset, data)`" (R57). -/
def programAccesses (lines : List HostLine) : List Access := lines.flatMap lineAccesses

/-- A program's accesses as inputs, each one after the completion of what was issued before it. -/
def politely (accesses : List Access) : List Input :=
  accesses.map (fun a => { beforeCompletion := false, event := .access a })

/-- Hand a host program to the machine. -/
def State.withProgram (s : State) (lines : List HostLine) : State :=
  { s with inputs := s.inputs ++ politely (programAccesses lines) }

/-- The system address of a window offset, with the window at `BFCORE_BASE` (R45). The host's address width is "left to the
platform": system addresses are unbounded here, so `BFCORE_BASE` plus an offset never wraps (DESIGN CHOICE,
notes/assumptions/16.md). -/
def systemAddress (p : Params) (off : Word) : Nat := p.base + off.toNat

/-- The window offset a system address falls on, if it lies in the window (R45, R17: a 32-bit byte-offset space), for
addresses that do not wrap (DESIGN CHOICE, notes/assumptions/16.md). -/
def windowOffset (p : Params) (addr : Nat) : Option Word :=
  if p.base ≤ addr ∧ addr < p.base + 2 ^ 32 then some (BitVec.ofNat 32 (addr - p.base)) else none

end Sys2Proof.Machine
end

