-- ==== Sys2Proof/Tests/Slice0.lean ====
section
/-! SUPPORT. Tests of the model against values of the spec (each names its source), and for every statement with
hypotheses a concrete case that meets them together. -/

namespace Sys2Proof.Tests

open Sys2Proof Sys2Proof.Machine

/-! ### Helpers -/

/-- The outcome is a next state with the property. -/
def nextSatisfies (o : Host.Outcome State Fault Refusal) (f : State → Bool) : Bool :=
  match o with
  | .next s => f s
  | .fault _ => false
  | .refused _ => false

theorem nextSatisfies_next {o : Host.Outcome State Fault Refusal} {f : State → Bool} (h : nextSatisfies o f = true) :
    ∃ t, o = .next t ∧ f t = true := by
  cases o with
  | next s => exact ⟨s, rfl, h⟩
  | fault r => cases h
  | refused r => cases h

/-- `s` with the accepted command word `w`. -/
def pending (w : Word) (s : State) : State := { s with pend := some w }

/-- `s` with one more thing for the outside to do, before or after the completion of the pending command. -/
def asking (early : Bool) (e : Event) (s : State) : State :=
  { s with inputs := s.inputs ++ [{ beforeCompletion := early, event := e }] }

/-- After reset, with the key "hello". -/
def withHello : State :=
  { State.reset with key := [(0, 0x68), (1, 0x65), (2, 0x6C), (3, 0x6C), (4, 0x6F)], keyLen := 5 }

/-- After reset and BA_INIT with ARG = 10. -/
def tenBits : State := { State.reset with size := 10 }

/-- The filter of the vectors L2-F: m = 29, k = 11. -/
def filter29 : State := { State.reset with size := 29, filterK := 11, cfgM := 29, cfgK := 11, configured := true }

/-- The status word and ERR_ARG of the next state. -/
def endsWith (o : Host.Outcome State Fault Refusal) (status errArg : Word) : Bool :=
  nextSatisfies o fun t => t.status == status && t.errArg == errArg

/-! ### What is well formed -/

/-- R51: any bit of MBZ makes the word illegal. -/
theorem test_mbz_bit_is_refused :
    ({ mbz := 1, op := 0x01 } : FormatC).mbzClear = false ∧ ({ mbz := 1, op := 0x01 } : FormatC).wellFormed = false ∧
      ({ mbz := 0x800000, op := 0xFF } : FormatC).wellFormed = false := by decide

/-- R55: OP = 0x00 and OP = 0x15 are not assigned. -/
theorem test_unassigned_op_is_refused :
    ({ mbz := 0, op := 0x00 } : FormatC).opAssigned = false ∧
      ({ mbz := 0, op := 0x15 } : FormatC).wellFormed = false := by decide

/-- R53: a legal word is well formed. -/
theorem test_legal_word_is_well_formed : ({ mbz := 0, op := 0x22 } : FormatC).wellFormed = true := by decide

/-- R8: KEY_MAX is a multiple of 4 from 4 to 4096. -/
theorem test_key_max_bounds :
    ({ keyMax := 6, arrayBytes := 4, base := 0 } : Params).keyMaxLegal = false ∧
      ({ keyMax := 0, arrayBytes := 4, base := 0 } : Params).keyMaxLegal = false ∧
      ({ keyMax := 4100, arrayBytes := 4, base := 0 } : Params).legal = false ∧
      ({ keyMax := 4096, arrayBytes := 4, base := 0 } : Params).legal = true := by decide

/-- R8: ARRAY_BYTES is a multiple of 4 from 4 to 2^28. -/
theorem test_array_bytes_bounds :
    ({ keyMax := 4, arrayBytes := 6, base := 0 } : Params).arrayBytesLegal = false ∧
      ({ keyMax := 4, arrayBytes := 0, base := 0 } : Params).arrayBytesLegal = false ∧
      ({ keyMax := 4, arrayBytes := 0x10000004, base := 0 } : Params).legal = false ∧
      ({ keyMax := 4, arrayBytes := 0x10000000, base := 0 } : Params).legal = true := by decide

/-! ### Decoding: the words of R53, bit by bit as R51 lays them out (MBZ 31:8, OP 7:0) -/

theorem test_decode_hash : decode 0b00000000000000000000000000000001 = .ok .hash := by rfl

theorem test_decode_baInit : decode 0b00000000000000000000000000010000 = .ok .baInit := by rfl

theorem test_decode_baTest : decode 0b00000000000000000000000000010001 = .ok .baTest := by rfl

theorem test_decode_baSet : decode 0b00000000000000000000000000010010 = .ok .baSet := by rfl

theorem test_decode_baClear : decode 0b00000000000000000000000000010011 = .ok .baClear := by rfl

theorem test_decode_baFlip : decode 0b00000000000000000000000000010100 = .ok .baFlip := by rfl

theorem test_decode_bfConfig : decode 0b00000000000000000000000000100000 = .ok .bfConfig := by rfl

theorem test_decode_bfInsert : decode 0b00000000000000000000000000100001 = .ok .bfInsert := by rfl

theorem test_decode_bfQuery : decode 0b00000000000000000000000000100010 = .ok .bfQuery := by rfl

theorem test_decode_softReset : decode 0b00000000000000000000000011111111 = .ok .softReset := by rfl

/-- R55: words that are no command, among them 0x0000_01FF. -/
theorem test_decode_rejects :
    decode 0x00000000 = .error (.opUnassigned 0x00) ∧ decode 0x00000015 = .error (.opUnassigned 0x15) ∧
      decode 0x000001FF = .error (.mbzNotZero 0x000001FF) ∧ decode 0x80000001 = .error (.mbzNotZero 0x80000001) :=
  ⟨rfl, rfl, rfl, rfl⟩

/-- The table's words, as spec/opcode_table.json numbers them. -/
theorem test_decode_table_words :
    decodeTableWord 32 0x01 = some .hash ∧ decodeTableWord 32 0x22 = some .bfQuery ∧
      decodeTableWord 32 0xFF = some .softReset ∧ decodeTableWord 32 0x1FF = none ∧
      decodeTableWord 8 0x01 = none ∧ decodeTableWord 64 0x01 = none := by decide

/-! ### Each command from a small state (spec/95_test_vectors.md) -/

/-- L1-1. -/
theorem test_hash_of_hello :
    nextSatisfies (step (pending 0x01 withHello)) (fun t =>
      t.result == 0x248BFA47 && t.pend == none && t.arg == 0 && t.key == withHello.key) = true := by decide

/-- L2-H7: KEY_LEN = 257 faults KEY_LEN_ERR. -/
theorem test_hash_key_too_long :
    endsWith (step (pending 0x01 { withHello with keyLen := 257 })) 0x00010802 0x101 = true := by decide

/-- L2-B2. -/
theorem test_baInit_clears :
    nextSatisfies (step (pending 0x10 { tenBits with arr := [(0, 0x08), (1, 0x03)], arg := 16 })) (fun t =>
      t.size == 16 && t.arr == [] && t.status == 0) = true := by decide

/-- L2-B11: CAP_BITS is legal, one more faults BAD_SIZE. -/
theorem test_baInit_bounds :
    nextSatisfies (step (pending 0x10 { tenBits with arg := 32768 })) (fun t => t.size == 32768 && t.status == 0) = true ∧
      endsWith (step (pending 0x10 { tenBits with arg := 32769 })) 0x00100302 0x8001 = true := by decide

/-- R76's example: bit 9 is set, bit 8 is clear. -/
theorem test_baTest_reads_the_bit :
    nextSatisfies (step (pending 0x11 { tenBits with arr := [(1, 0x02)], arg := 9 })) (fun t => t.result == 1) = true ∧
      nextSatisfies (step (pending 0x11 { tenBits with arr := [(1, 0x02)], arg := 8, result := 7 }))
        (fun t => t.result == 0) = true := by decide

/-- L2-B7: the bound is strict, and RESULT stays. -/
theorem test_baTest_bound :
    nextSatisfies (step (pending 0x11 { tenBits with arg := 10, result := 7 })) (fun t =>
      t.status == 0x00110202 && t.errArg == 10 && t.result == 7) = true := by decide

/-- L2-B4: the last bit. -/
theorem test_baSet_last_bit :
    nextSatisfies (step (pending 0x12 { tenBits with arg := 9 })) (fun t =>
      t.arr == [(1, 0x02)] && rawWordAt 0 t == 0x200 && t.result == 0) = true := by decide

/-- L2-E4: OWNED, with ERR_ARG = ARG. -/
theorem test_baSet_owned : endsWith (step (pending 0x12 { filter29 with arg := 3 })) 0x00120706 3 = true := by decide

/-- L2-B5. -/
theorem test_baClear :
    nextSatisfies (step (pending 0x13 { tenBits with arr := [(1, 0x03)], arg := 8 })) (fun t =>
      t.arr == [(1, 0x02)]) = true := by decide

/-- L2-B10: the comparison is unsigned. -/
theorem test_baClear_largest_arg :
    endsWith (step (pending 0x13 { State.reset with size := 5, arg := 0xFFFFFFFF })) 0x00130202 0xFFFFFFFF = true := by
  decide

/-- L2-B6: a flip of a set bit and a flip of a clear one. -/
theorem test_baFlip :
    nextSatisfies (step (pending 0x14 { tenBits with arr := [(0, 0x08)], arg := 3 })) (fun t => t.arr == []) = true ∧
      nextSatisfies (step (pending 0x14 { tenBits with arr := [(0, 0x08)], arg := 0 }))
        (fun t => t.arr == [(0, 0x09)]) = true := by decide

/-- R86's example. -/
theorem test_bfConfig :
    nextSatisfies (step (pending 0x20 { tenBits with cfgM := 29, cfgK := 11, arr := [(0, 0x08)] })) (fun t =>
      t.size == 29 && t.filterK == 11 && t.status == 4 && t.arr == []) = true := by decide

/-- L2-E7b, L2-E7c and L2-F12. -/
theorem test_bfConfig_faults :
    endsWith (step (pending 0x20 { State.reset with cfgM := 32769, cfgK := 5 })) 0x00200402 0x8001 = true ∧
      endsWith (step (pending 0x20 { State.reset with cfgM := 29, cfgK := 0 })) 0x00200402 0 = true ∧
      endsWith (step (pending 0x20 filter29)) 0x00200606 0 = true := by decide

/-- L2-F3: ten distinct bits of eleven rounds. -/
theorem test_bfInsert_hello :
    nextSatisfies (step (pending 0x21 { filter29 with key := withHello.key, keyLen := 5 })) (fun t =>
      t.arr == [(0, 0xA1), (1, 0x4A), (2, 0x10), (3, 0x0E)] && rawWordAt 0 t == 0x0E104AA1 && t.status == 4) = true := by
  decide

/-- L2-F13: no filter. -/
theorem test_bfInsert_not_configured : endsWith (step (pending 0x21 State.reset)) 0x00210502 0 = true := by decide

/-- L2-F3 and L2-F4: after inserting "hello", "hello" is answered 1 and "hellp" 0. -/
theorem test_bfQuery :
    nextSatisfies (step (pending 0x22
      { filter29 with
        key := withHello.key, keyLen := 5, arr := [(0, 0xA1), (1, 0x4A), (2, 0x10), (3, 0x0E)] }))
      (fun t => t.result == 1 && t.status == 4) = true ∧
    nextSatisfies (step (pending 0x22
      { filter29 with
        key := [(0, 0x68), (1, 0x65), (2, 0x6C), (3, 0x6C), (4, 0x70)], keyLen := 5, result := 1
        arr := [(0, 0xA1), (1, 0x4A), (2, 0x10), (3, 0x0E)] }))
      (fun t => t.result == 0 && t.status == 4) = true := by decide

/-- L2-E9 and L2-E8: KEY_LEN_ERR, and NOT_CONFIGURED before it. -/
theorem test_bfQuery_faults :
    endsWith (step (pending 0x22 { filter29 with keyLen := 0xFFFFFFFF })) 0x00220806 0xFFFFFFFF = true ∧
      endsWith (step (pending 0x22 { State.reset with keyLen := 257 })) 0x00220502 0 = true := by decide

/-- L2-Z4: SOFT_RESET at the write, while BF_INSERT is pending. -/
theorem test_softReset_while_busy :
    nextSatisfies (step (asking true (.access (.write 0 0xFF)) (pending 0x21 filter29))) (fun t =>
      { t with log := [] } == State.reset) = true := by decide

/-- L2-E13: SOFT_RESET from the faulted state of R95's example. -/
theorem test_softReset_from_fault :
    nextSatisfies (step (asking false (.access (.write 0 0xFF))
      { filter29 with fault := true, errCode := .bounds, errOp := 0x11, errArg := 29, arr := [(2, 0x10)] })) (fun t =>
      t.status == 0 && t.size == 0 && t.errArg == 0 && t.arr == [] && t.key == []) = true := by decide

/-! ### Illegal words, the handshake and the host port -/

/-- L2-E2, L2-E6 and L2-E1: ILLEGAL_CMD records the word, and comes before OWNED. -/
theorem test_illegal_words :
    endsWith (step (pending 0x1FF State.reset)) 0x00FF0102 0x1FF = true ∧
      endsWith (step (pending 0x112 filter29)) 0x00120106 0x112 = true ∧
      endsWith (step (pending 0 State.reset)) 0x00000102 0 = true := by decide

/-- L2-Z1, outcome (b): the write that arrives while BUSY = 1 is dropped and sets OVR. -/
theorem test_write_while_busy :
    nextSatisfies (step (asking true (.access (.write 8 1)) (pending 0x01 withHello))) (fun t =>
      t.arg == 0 && t.status == 9 && t.pend == some 0x01) = true := by decide

/-- L2-Z1, outcome (a): the completion step runs first. -/
theorem test_completion_before_write :
    nextSatisfies (step (asking false (.access (.write 8 1)) (pending 0x01 withHello))) (fun t =>
      t.arg == 0 && t.status == 0 && t.result == 0x248BFA47 && t.inputs.length == 1) = true := by decide

/-- L2-E12: in the faulted state an operand write is stored and a command is ignored. -/
theorem test_faulted_state :
    nextSatisfies (step (asking false (.access (.write 8 3)) (tenBits.enterFault 0x12 .bounds 10))) (fun t =>
      t.arg == 3 && t.status == 0x00120202) = true ∧
    nextSatisfies (step (asking false (.access (.write 0 0x12)) (tenBits.enterFault 0x12 .bounds 10))) (fun t =>
      t.pend == none && t.status == 0x00120202 && t.errArg == 10) = true := by decide

/-- L2-Z5: a write to SIZE is ignored and sets no OVR. -/
theorem test_read_only_write :
    nextSatisfies (step (asking true (.access (.write 0x1C 5)) (pending 0x01 tenBits))) (fun t =>
      t.size == 10 && t.ovr == false) = true := by decide

/-- R35: the first and last aligned offsets of each range, with the suggested parameters. -/
theorem test_offset_table :
    decodeOffset Params.suggested 0x0000002C = .ok (.reg .capKey) ∧
      decodeOffset Params.suggested 0x00000030 = .error .reserved ∧
      decodeOffset Params.suggested 0x00000FFC = .error .reserved ∧
      decodeOffset Params.suggested 0x00001000 = .ok (.keyWord 0) ∧
      decodeOffset Params.suggested 0x000010FC = .ok (.keyWord 63) ∧
      decodeOffset Params.suggested 0x00001100 = .error .reserved ∧
      decodeOffset Params.suggested 0x7FFFFFFC = .error .reserved ∧
      decodeOffset Params.suggested 0x80000000 = .ok (.rawWord 0) ∧
      decodeOffset Params.suggested 0x80000FFC = .ok (.rawWord 1023) ∧
      decodeOffset Params.suggested 0x80001000 = .error .reserved ∧
      decodeOffset Params.suggested 0xFFFFFFFC = .error .reserved ∧
      decodeOffset Params.suggested 0x00001001 = .error .misaligned :=
  ⟨rfl, rfl, rfl, rfl, rfl, rfl, rfl, rfl, rfl, rfl, rfl, rfl⟩

/-- R38, R58: the key-window words of "hello", as program P1 writes and reads them. -/
theorem test_key_window :
    nextSatisfies (hostWrite 0x1000 0x6C6C6568 State.reset) (fun t =>
      t.key == [(0, 0x68), (1, 0x65), (2, 0x6C), (3, 0x6C)]) = true ∧
      (hostRead 0x1004 withHello).log = [{ access := .read 0x1004, response := .data 0x6F }] := by decide

/-- L2-B12: raw bytes beyond the array read 0, here also where the byte stored there is not 0. -/
theorem test_raw_window :
    (hostRead 0x80000000 { tenBits with arr := [(1, 0x02), (2, 0xFF)] }).log =
      [{ access := .read 0x80000000, response := .data 0x200 }] := by decide

/-- R23: CAP_BITS and CAP_KEY. -/
theorem test_caps :
    (hostRead 0x28 State.reset).log = [{ access := .read 0x28, response := .data 32768 }] ∧
      (hostRead 0x2C State.reset).log = [{ access := .read 0x2C, response := .data 256 }] := by decide

/-- R37: a reserved offset is a bus error. -/
theorem test_bus_error :
    (hostRead 0x30 State.reset).log = [{ access := .read 0x30, response := .busError .reserved }] ∧
      noBusError (hostRead 0x30 State.reset) = false := by decide

/-- R126: a run that ends with a STATUS read has the state at that read as its final state, also when the platform resets
the block later. -/
theorem test_run_ends_at_the_last_access :
    (match finalState (asking false .hwReset (asking false (.access (.read 4)) tenBits)) with
      | some t => t.size == 10 && t.log == [{ access := .read 4, response := .data 0 }]
      | none => false) = true := by decide

/-- R126: no final state with a command pending at the last access, after a bus error, or when the last access is no
STATUS read. -/
theorem test_run_without_a_final_state :
    finalState (asking true (.access (.read 4)) (pending 0x11 tenBits)) = none ∧
      isFinal (((hostRead 0x4 State.reset)).withFetchWord 32 0x10) = false ∧
      finalState (asking false (.access (.read 4)) (asking false (.access (.read 0x30)) tenBits)) = none ∧
      finalState (asking false (.access (.read 8)) tenBits) = none := by decide

/-- Program P1 of spec/95_test_vectors.md and its encoding. -/
theorem test_program_encoding :
    programAccesses [.key [0x68, 0x65, 0x6C, 0x6C, 0x6F], .hash 0, .hash 1] =
      [.write 0x1000 0x6C6C6568, .write 0x1004 0x6F, .write 0x10 5, .write 8 0, .write 0 1, .read 4, .read 0xC,
        .write 8 1, .write 0 1, .read 4, .read 0xC] := by decide

/-- R45: the window at `BFCORE_BASE`. -/
theorem test_window_address :
    systemAddress { Params.suggested with base := 0x40000000 } 0x1004 = 0x40001004 ∧
      windowOffset { Params.suggested with base := 0x40000000 } 0x40001004 = some 0x1004 ∧
      windowOffset { Params.suggested with base := 0x40000000 } 0x3FFFFFFF = none := by decide

/-- The binary64 number nearest to 0.001, and its logarithm from a C library's `log`. -/
def oneThousandth : Binary64 := .finite false 0x10624DD2F1A9FC (-62)

/-- `ln` at 0.001 and at 2, the values of a C library's `log`. -/
def sampleLn (x : Binary64) : Binary64 :=
  if x = oneThousandth then .finite true 0x1BA18A998FFFA0 (-50)
  else if x = Binary64.ofInt 2 then .finite false 0x162E42FEFA39EF (-53)
  else .nan

/-- L2-S1 and L2-S6. -/
theorem test_sizing :
    hostSizing (binary64Arith sampleLn) 2 oneThousandth = some (29, 11) ∧
      hostSizing (binary64Arith sampleLn) 1000 oneThousandth = some (14378, 10) := by decide

/-- L2-S11: `p = 0`, `p = -0.5`, `p = 1`, `p` NaN and `n = 0` are refused. -/
theorem test_sizing_refuses :
    hostSizing (binary64Arith sampleLn) 2 (Binary64.ofInt 0) = none ∧
      hostSizing (binary64Arith sampleLn) 2 (.finite true (2 ^ 52) (-53)) = none ∧
      hostSizing (binary64Arith sampleLn) 2 (Binary64.ofInt 1) = none ∧
      hostSizing (binary64Arith sampleLn) 2 .nan = none ∧
      hostSizing (binary64Arith sampleLn) 0 oneThousandth = none := by decide

/-- IEEE 754 arithmetic with known results: `0.1 * 3` and `1 / 3` round, `-(1/2)` rounds up to 0, `0 / 0` is no number. -/
theorem test_binary64 :
    Binary64.mul (.finite false 0x1999999999999A (-56)) (Binary64.ofInt 3) = .finite false 0x13333333333334 (-54) ∧
      Binary64.div (Binary64.ofInt 1) (Binary64.ofInt 3) = .finite false 0x15555555555555 (-54) ∧
      Binary64.ceil (.finite true (2 ^ 52) (-53)) = some 0 ∧ oneThousandth.representable = true ∧
      Binary64.div (Binary64.ofInt 0) (Binary64.ofInt 0) = .nan := by decide

/-- A command word placed by `withFetchWord` is what the very next step from reset runs. -/
theorem test_fetch_word :
    nextSatisfies (step (State.reset.withFetchWord 32 0x10)) (fun t => t.status == 0 && t.pend == none) = true ∧
      endsWith (step (State.reset.withFetchWord 32 0x11)) 0x00110202 0 = true ∧
      nextSatisfies (step (State.reset.withFetchWord 32 0xFF)) (fun t =>
        t.log == [{ access := .write 0 0xFF, response := .done }]) = true ∧
      State.reset.withFetchWord 8 0x10 = State.reset := by decide

/-! ### For each statement with hypotheses, a case that meets them together -/

/-- A state with empty memories meets the invariant when its registers do. -/
theorem plain_invariant {s : State} (hp : s.params.legal = true) (hk : s.key = []) (ha : s.arr = [])
    (hs : s.size.toNat ≤ s.params.capBits) (hc : s.configured = true → s.size ≠ 0 ∧ s.filterK ≠ 0)
    (hu : s.configured = false → s.filterK = 0) (hf : s.fault = false)
    (he : s.errCode = .noFault ∧ s.errOp = 0 ∧ s.errArg = 0) (hn : s.pend ≠ some (encode .softReset)) : Invariant s where
  params_legal := hp
  key_wf := by rw [hk]; exact memory_wf_nil
  key_inside := by rw [hk]; nofun
  arr_wf := by rw [ha]; exact memory_wf_nil
  arr_inside := by rw [ha]; nofun
  size_le_cap := hs
  padding_zero := fun pos _ => by rw [State.bit, ha]; exact BitVec.getLsbD_zero
  configured_sized := hc
  unconfigured_k := hu
  code_iff_fault := ⟨fun _ => hf, fun _ => he.1⟩
  no_fault_clear := fun _ => he.2
  fault_idle := fun h => absurd h (by rw [hf]; decide)
  pend_not_reset := hn

theorem suggested_legal : Params.suggested.legal = true := by decide

theorem tenBits_invariant (a : Word) (p : Option Word) (l : List Input) (hp : p ≠ some (encode .softReset)) :
    Invariant { tenBits with arg := a, pend := p, inputs := l } :=
  plain_invariant suggested_legal rfl rfl (by simp [tenBits, Params.capBits, State.reset, Params.suggested]) nofun
    (fun _ => rfl) rfl ⟨rfl, rfl, rfl⟩ hp

theorem filter29_invariant (p : Option Word) (l : List Input) (hp : p ≠ some (encode .softReset)) :
    Invariant { filter29 with pend := p, inputs := l } :=
  plain_invariant suggested_legal rfl rfl (by simp [filter29, Params.capBits, State.reset, Params.suggested])
    (fun _ => ⟨by simp [filter29], by simp [filter29]⟩) nofun rfl ⟨rfl, rfl, rfl⟩ hp

theorem tenBits_faulted_invariant : Invariant (tenBits.enterFault 0x12 .bounds 10) :=
  Invariant.enterFault (s := tenBits) (tenBits_invariant 0 none [] (by decide)) 0x12 (c := .bounds) (by decide) 10

theorem witness_DecodeAcceptsExactlyTheEncodings :
    decode 0x22 = .ok .bfQuery ∧ decodePending 0x22 = .ok .bfQuery ∧ (0x22 : Word) = encode .bfQuery := ⟨rfl, rfl, rfl⟩

theorem witness_StepRunsThePendingCommand :
    (pending 0x11 tenBits).pend = some 0x11 ∧ nextArrivesEarly (pending 0x11 tenBits).inputs = false ∧
      decodePending 0x11 = .ok .baTest := ⟨rfl, rfl, rfl⟩

theorem witness_StepRunsSoftResetAtTheWrite :
    (asking true (.access (.write 0 0xFF)) (pending 0x11 tenBits)).inputs =
        { beforeCompletion := true, event := .access (.write 0 0x000000FF) } :: [] ∧
      (tenBits.busy = true → false = true) ∧
      (asking false (.access (.write 0 0xFF)) tenBits).inputs =
        { beforeCompletion := false, event := .access (.write 0 0x000000FF) } :: [] :=
  ⟨rfl, by decide, rfl⟩

theorem witness_StepServesTheNextInputOrIdles :
    outsideMoves (asking true .hwReset (pending 0x11 tenBits)) = true ∧ outsideMoves (asking false .hwReset tenBits) = true ∧
      tenBits.pend = none ∧ tenBits.inputs = [] := by decide

theorem witness_IllegalWordFaultsWhenCompleted :
    (∀ w ∈ [0x00000000#32, 0x000001FF#32, 0xFFFFFFFF#32, 0x00000023#32],
      w ∉ [0x01#32, 0x10#32, 0x11#32, 0x12#32, 0x13#32, 0x14#32, 0x20#32, 0x21#32, 0x22#32]) ∧
      (pending 0 tenBits).pend = some 0 ∧ nextArrivesEarly (pending 0 tenBits).inputs = false := by
  simp [tenBits, pending, State.reset, nextArrivesEarly]

/-- One state for each branch of R50. -/
theorem witness_CommandIssueOrder :
    (pending 0x01 tenBits).pend ≠ none ∧ (tenBits.pend = none ∧ tenBits.fault = false) ∧
      (tenBits.enterFault 0x12 .bounds 10).pend = none ∧ (tenBits.enterFault 0x12 .bounds 10).fault = true := by decide

theorem witness_ResetForgetsTheBlock :
    (pending 0x21 filter29).params = tenBits.params ∧ (pending 0x21 filter29).inputs = tenBits.inputs ∧
      (pending 0x21 filter29).log = tenBits.log ∧ (pending 0x21 filter29).draws = tenBits.draws ∧
      pending 0x21 filter29 ≠ tenBits := by decide

/-- The boundary offsets of each clause; `test_offset_table` gives what they reach. -/
theorem witness_OffsetTableIsTotal :
    Params.suggested.legal = true ∧
      (∀ a ∈ [0x0#32, 0x2C#32, 0x30#32, 0xFFC#32, 0x1000#32, 0x10FC#32, 0x1100#32, 0x7FFFFFFC#32, 0x80000000#32,
        0x80000FFC#32, 0x80001000#32, 0xFFFFFFFC#32], a.toNat % 4 = 0) := by
  simp [Params.suggested, Params.legal, Params.keyMaxLegal, Params.arrayBytesLegal]

theorem witness_MisalignedAccessIsNotPerformed :
    ∀ a ∈ [0x1#32, 0x2#32, 0x3#32, 0xFFFFFFFF#32], a.extractLsb' 0 2 ≠ 0 := by
  simp

theorem witness_ReservedOffsetIsABusError :
    tenBits.params.legal = true ∧
      (∀ a ∈ [0x30#32, 0xFFC#32], a.toNat % 4 = 0 ∧ 0x30 ≤ a.toNat ∧ a.toNat < 0x1000) ∧
      (∀ a ∈ [0x1100#32, 0x7FFFFFFC#32], a.toNat % 4 = 0 ∧ 0x1000 + tenBits.params.keyMax ≤ a.toNat ∧
        a.toNat < 0x80000000) ∧
      ∀ a ∈ [0x80001000#32, 0xFFFFFFFC#32], a.toNat % 4 = 0 ∧ 0x80000000 + tenBits.params.arrayBytes ≤ a.toNat := by
  simp [tenBits, State.reset, Params.suggested, Params.legal, Params.keyMaxLegal, Params.arrayBytesLegal]

theorem witness_RegisterReadsReturnTheirValues :
    (0x02C#32, BitVec.ofNat 32 tenBits.params.keyMax) ∈ [(0x000#32, 0#32), (0x02C#32, 256#32)] ∧ tenBits.pend = none := by
  decide

theorem witness_StatusFieldLayout :
    (ErrCode.keyLenErr, 0x8) ∈ [(ErrCode.noFault, 0x0), (.keyLenErr, 0x8)] ∧
      (tenBits.enterFault 0x01 .keyLenErr 257).errCode = .keyLenErr := by decide

theorem witness_ReadsWhileBusyAreFreeDraws :
    (pending 0x01 tenBits).params.legal = true ∧ (pending 0x01 tenBits).pend ≠ none ∧
      ∀ a ∈ [0x80000000#32, 0x80000FFC#32],
        a.toNat % 4 = 0 ∧ 0x80000000 ≤ a.toNat ∧ a.toNat < 0x80000000 + tenBits.params.arrayBytes := by
  simp [tenBits, pending, State.reset, Params.suggested, Params.legal, Params.keyMaxLegal, Params.arrayBytesLegal]

theorem witness_OperandWritesAreStored :
    tenBits.pend = none ∧ (tenBits.enterFault 0x12 .bounds 10).pend = none := by decide

theorem witness_WritesWhileBusyAreDropped :
    (pending 0x01 tenBits).params.legal = true ∧ (pending 0x01 tenBits).pend ≠ none ∧ (0x12 : Word) ≠ 0x000000FF ∧
      ∀ a ∈ [0x1000#32, 0x10FC#32],
        a.toNat % 4 = 0 ∧ 0x1000 ≤ a.toNat ∧ a.toNat < 0x1000 + tenBits.params.keyMax := by
  simp [tenBits, pending, State.reset, Params.suggested, Params.legal, Params.keyMaxLegal, Params.arrayBytesLegal]

theorem witness_ReadOnlyWritesAreIgnored :
    tenBits.params.legal = true ∧ 0x02C#32 ∈ [0x004#32, 0x00C#32, 0x01C#32, 0x020#32, 0x024#32, 0x028#32, 0x02C#32] ∧
      ∀ a ∈ [0x80000000#32, 0x80000FFC#32],
        a.toNat % 4 = 0 ∧ 0x80000000 ≤ a.toNat ∧ a.toNat < 0x80000000 + tenBits.params.arrayBytes := by
  simp [tenBits, State.reset, Params.suggested, Params.legal, Params.keyMaxLegal, Params.arrayBytesLegal]

/-- The first and the last word of the key window. -/
theorem witness_KeyWindowIsLittleEndian :
    Invariant { tenBits with arg := 0, pend := none, inputs := [] } ∧ tenBits.pend = none ∧
      0 < tenBits.params.keyMax / 4 ∧ 63 < tenBits.params.keyMax / 4 ∧
      nextSatisfies (hostWrite 0x10FC 0x04030201 tenBits) (fun t =>
        t.key == [(252, 0x01), (253, 0x02), (254, 0x03), (255, 0x04)]) = true :=
  ⟨tenBits_invariant 0 none [] (by decide), rfl, by decide, by decide, by decide⟩

theorem witness_KeyWindowWordIsHashChunk :
    4 * 0 + 3 < ({ withHello with keyLen := 4 } : State).keyLen.toNat ∧
      4 * 63 + 3 < ({ withHello with keyLen := 256 } : State).keyLen.toNat := by decide

/-- The first and the last bit. -/
theorem witness_RawWindowShowsTheBitArray :
    Invariant { tenBits with arg := 0, pend := none, inputs := [] } ∧ tenBits.pend = none ∧ 0 < tenBits.size.toNat ∧
      9 < tenBits.size.toNat :=
  ⟨tenBits_invariant 0 none [] (by decide), rfl, by decide, by decide⟩

theorem witness_RawWindowBytes :
    tenBits.params.legal = true ∧ tenBits.pend = none ∧ 0 < tenBits.params.arrayBytes / 4 ∧
      1023 < tenBits.params.arrayBytes / 4 := by decide

theorem witness_HostCannotDisturbAPendingCommand :
    (asking true (.access (.write 8 1)) (pending 0x01 withHello)).pend ≠ none ∧
      outsideMoves (asking true (.access (.write 8 1)) (pending 0x01 withHello)) = true ∧
      takesReset (asking true (.access (.write 8 1)) (pending 0x01 withHello)) = false ∧
      ∃ t, step (asking true (.access (.write 8 1)) (pending 0x01 withHello)) = .next t :=
  ⟨by decide, by decide, by decide, (nextSatisfies_next (f := fun _ => true) (by decide)).imp fun _ h => h.1⟩

theorem witness_StatusPollSeesCompletion :
    ∃ t, step (asking false (.access (.read 4)) tenBits) = .next t ∧
      t.log = { access := .read 0x004, response := .data 0 } :: tenBits.log ∧ (0 : Word).getLsbD 0 = false :=
  ⟨_, rfl, by decide, by decide⟩

theorem witness_HashWritesResult :
    withHello.keyLen.toNat ≤ withHello.params.keyMax ∧
      ({ withHello with keyLen := 256 } : State).keyLen.toNat ≤ withHello.params.keyMax := by decide

/-- "helloXYZ" and "hello" (L2-H5), for each of the three commands. -/
theorem witness_BytesBeyondKeyLenHaveNoEffect :
    (∀ a, a < withHello.keyLen.toNat → (withHello.key ++ [(5, 0x58)]).read a = withHello.key.read a) ∧
      ∀ i ∈ [Instr.hash, .bfInsert, .bfQuery], ∃ t, exec i withHello = .next t := by
  refine ⟨by decide, fun i hi => ?_⟩
  have h : nextSatisfies (exec i withHello) (fun _ => true) = true := by
    revert hi i
    decide
  exact (nextSatisfies_next h).imp fun _ h => h.1

/-- n = 0, and n = CAP_BITS. -/
theorem witness_BaInitMakesAnEmptyArray :
    tenBits.configured = false ∧ ({ tenBits with arg := 0 } : State).arg.toNat ≤ 8 * tenBits.params.arrayBytes ∧
      ({ tenBits with arg := 32768 } : State).arg.toNat ≤ 8 * tenBits.params.arrayBytes := by decide

/-- The first and the last position, for BA_TEST, BA_SET, BA_CLEAR, BA_FLIP and the fidelity properties. -/
theorem witness_BitCommands :
    (Invariant { tenBits with arg := 0, pend := none, inputs := [] } ∧
      ({ tenBits with arg := 0 } : State).arg.toNat < tenBits.size.toNat) ∧
    (Invariant { tenBits with arg := 9, pend := none, inputs := [] } ∧
      ({ tenBits with arg := 9 } : State).arg.toNat < tenBits.size.toNat) ∧ tenBits.configured = false :=
  ⟨⟨tenBits_invariant 0 none [] (by decide), by decide⟩, ⟨tenBits_invariant 9 none [] (by decide), by decide⟩, rfl⟩

/-- The other position of R80 (d). -/
theorem witness_BitArrayFidelity : (0 : Word) ≠ ({ tenBits with arg := 9 } : State).arg ∧ (0 : Word).toNat < tenBits.size.toNat := by
  decide

theorem witness_OwnedArrayCannotBeMutated :
    filter29.configured = true ∧
      (Instr.baFlip, 0x14#8) ∈ [(Instr.baInit, 0x10#8), (.baSet, 0x12#8), (.baClear, 0x13#8), (.baFlip, 0x14#8)] := by
  decide

/-- `pos = SIZE`, and the largest position. -/
theorem witness_PositionOutOfRangeFaultsBounds :
    (Instr.baTest, 0x11#8) ∈ [(Instr.baTest, 0x11#8), (.baSet, 0x12#8), (.baClear, 0x13#8), (.baFlip, 0x14#8)] ∧
      tenBits.configured = false ∧ tenBits.size.toNat ≤ ({ tenBits with arg := 10 } : State).arg.toNat ∧
      tenBits.size.toNat ≤ ({ tenBits with arg := 0xFFFFFFFF } : State).arg.toNat := by decide

theorem witness_BaInitTooLargeFaultsBadSize :
    tenBits.configured = false ∧ 8 * tenBits.params.arrayBytes < ({ tenBits with arg := 32769 } : State).arg.toNat := by
  decide

/-- m = 1 and k = 1, m = CAP_BITS and the largest k. -/
theorem witness_BfConfigConstructsTheFilter :
    tenBits.configured = false ∧
      (1 ≤ (1 : Word).toNat ∧ (1 : Word).toNat ≤ 8 * tenBits.params.arrayBytes) ∧
      (1 ≤ (32768 : Word).toNat ∧ (32768 : Word).toNat ≤ 8 * tenBits.params.arrayBytes) ∧
      1 ≤ (0xFFFFFFFF : Word).toNat := by decide

theorem witness_BfConfigFaultsInOrder :
    filter29.configured = true ∧ (tenBits.configured = false ∧ tenBits.cfgM = 0) ∧
      8 * tenBits.params.arrayBytes < ({ tenBits with cfgM := 32769 } : State).cfgM.toNat ∧
      (1 ≤ ({ tenBits with cfgM := 29 } : State).cfgM.toNat ∧ tenBits.cfgK = 0) := by decide

/-- The empty key and the longest key, for BF_INSERT and BF_QUERY, the sequencer and the index range. -/
theorem witness_FilterCommands :
    Invariant { filter29 with pend := none, inputs := [] } ∧ filter29.configured = true ∧ filter29.fault = false ∧
      filter29.keyLen.toNat ≤ filter29.params.keyMax ∧
      ({ filter29 with keyLen := 256 } : State).keyLen.toNat ≤ filter29.params.keyMax :=
  ⟨filter29_invariant none [] (by decide), rfl, rfl, by decide, by decide⟩

theorem witness_FilterCommandsNeedAFilter :
    tenBits.configured = false ∧ (Instr.bfQuery, 0x22#8) ∈ [(Instr.bfInsert, 0x21#8), (.bfQuery, 0x22#8)] := by decide

theorem witness_KeyTooLongFaultsKeyLenErr :
    (Instr.bfQuery, 0x22#8) ∈ [(Instr.hash, 0x01#8), (.bfInsert, 0x21#8), (.bfQuery, 0x22#8)] ∧
      filter29.configured = true ∧ tenBits.configured = false ∧
      filter29.params.keyMax < ({ filter29 with keyLen := 257 } : State).keyLen.toNat := by decide

/-- An insert that is made twice. -/
theorem witness_InsertIsIdempotent :
    ∃ s t u, Invariant s ∧ exec .bfInsert s = .next t ∧ exec .bfInsert t = .next u := by
  have h : nextSatisfies (exec .bfInsert filter29) (fun t => nextSatisfies (exec .bfInsert t) fun _ => true) = true := by
    decide
  obtain ⟨t, ht, h⟩ := nextSatisfies_next h
  obtain ⟨u, hu, -⟩ := nextSatisfies_next h
  exact ⟨filter29, t, u, filter29_invariant none [] (by decide), ht, hu⟩

/-- After BF_CONFIG a query, with an idle step between. -/
theorem witness_EmptyFilterAnswersNo :
    ∃ s t u v, Invariant s ∧ s.configured = false ∧ exec .bfConfig s = .next t ∧ t.configured = true ∧
      RunsAvoiding (fun a => takesReset a || completesInsert a) t u ∧ exec .bfQuery u = .next v ∧ v.fault = false := by
  have h : nextSatisfies (exec .bfConfig { tenBits with cfgM := 29, cfgK := 11 }) (fun t =>
      t.configured && (t.pend == none && (t.inputs == [] &&
        nextSatisfies (exec .bfQuery t) fun v => !v.fault))) = true := by decide
  obtain ⟨t, ht, h⟩ := nextSatisfies_next h
  simp only [Bool.and_eq_true, beq_iff_eq] at h
  obtain ⟨hc, hp, hi, h⟩ := h
  obtain ⟨v, hv, h⟩ := nextSatisfies_next h
  refine ⟨_, t, t, v, ?_, rfl, ht, hc, .more (.refl t) ?_ ?_, hv, by simpa using h⟩
  · exact plain_invariant (by rfl) rfl rfl (by decide) nofun (fun _ => rfl) rfl ⟨rfl, rfl, rfl⟩ (by decide)
  · simp [takesReset, completesInsert, hi, hp]
  · simp [step, nextInput, hi, hp]

/-- An insert and a query of the same key, with an idle step between. -/
theorem witness_NoFalseNegatives :
    ∃ s t u v, Invariant s ∧ exec .bfInsert s = .next t ∧ t.fault = false ∧ RunsAvoiding takesReset t u ∧
      u.keyLen = s.keyLen ∧ (∀ a, a < s.keyLen.toNat → u.key.read a = s.key.read a) ∧ exec .bfQuery u = .next v ∧
      v.fault = false := by
  have h : nextSatisfies (exec .bfInsert filter29) (fun t =>
      t.keyLen == 0 && (t.pend == none && (t.inputs == [] && (!t.fault &&
        nextSatisfies (exec .bfQuery t) fun v => !v.fault)))) = true := by decide
  obtain ⟨t, ht, h⟩ := nextSatisfies_next h
  simp only [Bool.and_eq_true, beq_iff_eq] at h
  obtain ⟨hl, hp, hi, hf, h⟩ := h
  obtain ⟨v, hv, h⟩ := nextSatisfies_next h
  refine ⟨filter29, t, t, v, filter29_invariant none [] (by decide), ht, by simpa using hf, .more (.refl t) ?_ ?_, hl,
    fun a ha => absurd ha (by simp [filter29, State.reset]), hv, by simpa using h⟩
  · simp [takesReset, hi]
  · simp [step, nextInput, hi, hp]

/-- A step of a configured filter that is not a reset: the completion of BF_INSERT. -/
theorem witness_FilterSteps :
    Invariant { filter29 with pend := some 0x21, inputs := [] } ∧ (pending 0x21 filter29).configured = true ∧
      takesReset (pending 0x21 filter29) = false ∧ ∃ t, step (pending 0x21 filter29) = .next t :=
  ⟨filter29_invariant (some 0x21) [] (by decide), rfl, rfl,
    (nextSatisfies_next (f := fun _ => true) (by decide)).imp fun _ h => h.1⟩

theorem witness_FaultingCommandWritesNothingElse :
    ∃ t, tenBits.fault = false ∧ exec .bfInsert tenBits = .next t ∧ t.fault = true := ⟨_, rfl, rfl, rfl⟩

theorem witness_FirstFaultIsKeptUntilReset :
    Invariant (tenBits.enterFault 0x12 .bounds 10) ∧ (tenBits.enterFault 0x12 .bounds 10).fault = true ∧
      takesReset (tenBits.enterFault 0x12 .bounds 10) = false ∧
      ∃ t, step (tenBits.enterFault 0x12 .bounds 10) = .next t :=
  ⟨tenBits_faulted_invariant, rfl, rfl, _, rfl⟩

/-- A state with a pending command and an access that comes before its completion, for the statements about every step. -/
theorem witness_StepStatements :
    ∃ s t, Invariant s ∧ s.pend ≠ none ∧ s.inputs ≠ [] ∧ step s = .next t :=
  ⟨{ tenBits with arg := 0, pend := some 0x11, inputs := [{ beforeCompletion := true, event := .access (.read 4) }] }, _,
    tenBits_invariant 0 (some 0x11) _ (by decide), by decide, by decide, rfl⟩

theorem witness_SizingGivesAUsableFilter :
    (1 ≤ 1 ∧ (0 : ℝ) < 1 / 2 ∧ (1 / 2 : ℝ) < 1) ∧ ((0 : Nat) = 0 ∧ (0 : ℝ) ≤ 0 ∧ (1 : ℝ) ≤ 1) ∧
      Binary64.ofInt 1 = .finite false (2 ^ 52) (-52) ∧ 2 ^ (52 : Nat) ≤ 2 ^ 52 * 2 ^ 0 := by
  refine ⟨by norm_num, by norm_num, by decide, by norm_num⟩

end Sys2Proof.Tests
end

section
/-! The invariant holds after reset, and every piece a step is made of keeps it (R22, R32, R102, R106). -/

namespace Sys2Proof.Machine

/-- Reset answers a state of the invariant from any state with legal parameters (R32, R116). -/
theorem resetBlock_invariant {s : State} (h : s.params.legal = true) : Invariant s.resetBlock where
  params_legal := h
  key_wf := memory_wf_nil
  key_inside := nofun
  arr_wf := memory_wf_nil
  arr_inside := nofun
  size_le_cap := Nat.zero_le _
  padding_zero _ _ := by simp [State.bit]
  configured_sized := nofun
  unconfigured_k _ := rfl
  code_iff_fault := by simp
  no_fault_clear _ := ⟨rfl, rfl⟩
  fault_idle := nofun
  pend_not_reset := nofun

/-- Settles O56: the reset state is the reset of a block with the suggested parameters, which are legal. -/
theorem resetStateMeetsTheInvariant : Obligations.ResetStateMeetsTheInvariant :=
  resetBlock_invariant (s := State.reset) (by decide)

/-- `f` acts, within a byte, on the bit under the mask alone (R73). -/
def ActsUnderMask (f : Byte → Byte → Byte) : Prop :=
  ∃ g : Bool → Bool, ∀ (v : Byte) (p q : Nat), byteOf q = byteOf p →
    (f v (maskOf p)).getLsbD (q % 8) = if q = p then g (v.getLsbD (q % 8)) else v.getLsbD (q % 8)

theorem or_actsUnderMask : ActsUnderMask fun v m => v ||| m := ⟨fun _ => true, fun v _ _ h => or_mask_getLsbD v h⟩

theorem and_not_actsUnderMask : ActsUnderMask fun v m => v &&& ~~~m :=
  ⟨fun _ => false, fun v _ _ h => and_not_mask_getLsbD v h⟩

theorem xor_actsUnderMask : ActsUnderMask fun v m => v ^^^ m := ⟨fun b => !b, fun v _ _ h => xor_mask_getLsbD v h⟩

/-- A read-modify-write under the mask changes no bit of another position. -/
theorem bit_modify_other {s : State} (hs : s.arr.wf) {f : Byte → Byte → Byte} (hf : ActsUnderMask f) {p q : Nat}
    (hq : q ≠ p) :
    State.bit { s with arr := s.arr.write (byteOf p) (f (s.arr.read (byteOf p)) (maskOf p)) } q = s.bit q := by
  obtain ⟨g, hg⟩ := hf
  rw [bit_modify hs f g p (fun q h => by rw [hg _ _ _ h, State.bit, h]), if_neg hq]

/-- BA_SET, BA_CLEAR and BA_FLIP keep the invariant: the written byte exists, and the changed bit is no padding bit. -/
theorem mutateBit_invariant {w : Word} {f : Byte → Byte → Byte} {s t : State} (h : Invariant s) (hf : ActsUnderMask f)
    (ht : mutateBit w f s = .next t) : Invariant t := by
  rcases mutateBit_cases ht with ⟨-, rfl⟩ | ⟨-, -, rfl⟩ | ⟨-, hlt, hb, rfl⟩
  · exact h.enterFault _ (by decide) _
  · exact h.enterFault _ (by decide) _
  · refine h.completion s.result (memory_write_wf h.arr_wf _ _) (memory_write_inside h.arr_inside hb _) fun q hq => ?_
    have hne : q ≠ s.arg.toNat := by omega
    exact (bit_modify_other h.arr_wf hf hne).trans (h.padding_zero q hq)

/-- The insert loop keeps the invariant: every index is below SIZE, so no padding bit is set. -/
theorem insertRounds_invariant {key : List Byte} {n i : Nat} {s t : State} (h : Invariant s)
    (ht : insertRounds key n i s = .ok t) : Invariant { t with pend := none } := by
  obtain ⟨e, hwf, hsized, hbit, -, hmem⟩ := insertRounds_cases h.arr_wf ht
  rw [e]
  refine h.completion s.result hwf (fun c hc => (hmem c hc).elim id (h.arr_inside c)) fun q hq => ?_
  rw [← Bool.not_eq_true]
  intro hset
  rcases (hbit q).mp hset with hold | ⟨k, h1, h2, rfl⟩
  · exact absurd hold (by simp [h.padding_zero q hq])
  · have := filterIndex_lt key k (hsized k h1 h2).1
    omega

/-- Every command keeps the invariant. -/
theorem exec_invariant {i : Instr} {s t : State} (h : Invariant s) (ht : exec i s = .next t) : Invariant t := by
  have resultOnly (r : Word) : Invariant { s with pend := none, result := r } :=
    h.completion r h.arr_wf h.arr_inside h.padding_zero
  cases i with
  | hash =>
    rcases execHash_cases ht with ⟨-, rfl⟩ | ⟨-, rfl⟩
    · exact h.enterFault _ (by decide) _
    · exact resultOnly _
  | baInit =>
    rcases execBaInit_cases ht with ⟨-, rfl⟩ | ⟨-, -, rfl⟩ | ⟨hc, hn, rfl⟩
    · exact h.enterFault _ (by decide) _
    · exact h.enterFault _ (by decide) _
    · exact h.zeroed hn (by simp [hc]) h.unconfigured_k
  | baTest =>
    rcases execBaTest_cases ht with ⟨-, rfl⟩ | ⟨-, rfl⟩
    · exact h.enterFault _ (by decide) _
    · exact resultOnly _
  | baSet => exact mutateBit_invariant h or_actsUnderMask ht
  | baClear => exact mutateBit_invariant h and_not_actsUnderMask ht
  | baFlip => exact mutateBit_invariant h xor_actsUnderMask ht
  | bfConfig =>
    rcases execBfConfig_cases ht with ⟨-, rfl⟩ | ⟨-, -, rfl⟩ | ⟨-, -, rfl⟩ | ⟨-, hm, hcap, hk, rfl⟩
    · exact h.enterFault _ (by decide) _
    · exact h.enterFault _ (by decide) _
    · exact h.enterFault _ (by decide) _
    · exact h.zeroed hcap (fun _ => ⟨hm, hk⟩) nofun
  | bfInsert =>
    rcases execBfInsert_cases ht with ⟨-, rfl⟩ | ⟨-, -, rfl⟩ | ⟨-, -, u, hu, rfl⟩
    · exact h.enterFault _ (by decide) _
    · exact h.enterFault _ (by decide) _
    · exact insertRounds_invariant h hu
  | bfQuery =>
    rcases execBfQuery_cases ht with ⟨-, rfl⟩ | ⟨-, -, rfl⟩ | ⟨-, -, b, -, rfl⟩
    · exact h.enterFault _ (by decide) _
    · exact h.enterFault _ (by decide) _
    · exact resultOnly _
  | softReset => exact execSoftReset_cases ht ▸ resetBlock_invariant h.params_legal

/-- The completion of any pending word keeps the invariant. -/
theorem completePending_invariant {w : Word} {s t : State} (h : Invariant s) (ht : completePending w s = .next t) :
    Invariant t := by
  rcases completePending_cases ht with ⟨i, -, -, hex⟩ | rfl
  · exact exec_invariant h hex
  · exact h.enterFault _ (by decide) _

/-- The invariant speaks of nothing on the HOST side. -/
theorem Invariant.hostSide {s : State} (h : Invariant s) (ins : List Input) (l : List Record) (n : Nat) :
    Invariant { s with inputs := ins, log := l, draws := n } :=
  h.hostWrites h.fault_idle h.pend_not_reset s.ovr s.arg s.keyLen s.cfgM s.cfgK h.key_wf h.key_inside ins l n

/-- A key-window write keeps KEY canonical. -/
theorem writeKeyWord_wf {s : State} (h : s.key.wf) (j : Nat) (d : Word) : (writeKeyWord j d s).key.wf :=
  memory_write_wf (memory_write_wf (memory_write_wf (memory_write_wf h _ _) _ _) _ _) _ _

/-- A key-window write inside the buffer keeps KEY inside it. -/
theorem writeKeyWord_inside {s : State} {n j : Nat} (h : ∀ c ∈ s.key, c.1 < n) (hj : 4 * j + 3 < n) (d : Word) :
    ∀ c ∈ (writeKeyWord j d s).key, c.1 < n :=
  memory_write_inside (memory_write_inside (memory_write_inside (memory_write_inside h (by omega) _) (by omega) _)
    (by omega) _) hj _

/-- A HOST write that is no SOFT_RESET keeps the invariant: a command is accepted only in a block that is not faulted
(R102), and a key-window word lies inside the buffer (R35). -/
theorem writeTarget_invariant {tg : Target} {off d : Word} {s : State} (h : Invariant s)
    (htg : decodeOffset s.params off = .ok tg) (hd : tg = .reg .cmd → d ≠ encode .softReset) :
    Invariant (writeTarget tg d s) := by
  rcases writeTarget_cases tg d s with ⟨-, e⟩ | e | ⟨-, hf, rfl, e⟩ | ⟨-, a, kl, m, k, e⟩ | ⟨-, j, rfl, e⟩ <;> rw [e]
  · exact h.hostWrites h.fault_idle h.pend_not_reset _ _ _ _ _ h.key_wf h.key_inside _ _ _
  · exact h
  · exact h.hostWrites (p := some d) (by simp [hf]) (by simpa using hd rfl) _ _ _ _ _ h.key_wf h.key_inside _ _ _
  · exact h.hostWrites h.fault_idle h.pend_not_reset _ a kl m k h.key_wf h.key_inside _ _ _
  · have hj := decodeOffset_keyWord (legal_cases h.params_legal).1 htg
    exact h.hostWrites h.fault_idle h.pend_not_reset _ _ _ _ _ (writeKeyWord_wf h.key_wf j d)
      (writeKeyWord_inside h.key_inside hj d) _ _ _

/-- Whatever the outside does keeps the invariant. -/
theorem outsideEvent_invariant {e : Event} {s t : State} (h : Invariant s) (ht : outsideEvent e s = .next t) :
    Invariant t := by
  rcases outsideEvent_cases ht with ⟨-, l, rfl⟩ | ⟨-, ⟨l, n, rfl⟩ | ⟨off, d, tg, l, -, htg, hd, rfl⟩⟩
  · exact (resetBlock_invariant h.params_legal).hostSide _ l _
  · exact h.hostSide _ l n
  · exact (writeTarget_invariant h htg hd).hostSide _ l _

/-- One step keeps the invariant. -/
theorem step_invariant {s t : State} (h : Invariant s) (ht : step s = .next t) : Invariant t := by
  rcases step_cases ht with ⟨-, -, rfl⟩ | ⟨-, x, rest, -, he⟩ | ⟨-, w, -, hc⟩
  · exact h
  · exact outsideEvent_invariant (h.hostSide rest s.log s.draws) he
  · exact completePending_invariant h hc

/-- Settles O57, by the three things a step can be: holding the state, one input from the outside, one completion. -/
theorem stepKeepsTheInvariant : Obligations.StepKeepsTheInvariant := fun _ _ => step_invariant

end Sys2Proof.Machine
end

section
/-! Every step from a state of the invariant answers, and a pending command is gone before the outside has had more turns
than it has queued (R16, R120). -/

namespace Sys2Proof.Machine

/-- The storage holds the bit array, in the units of the bit operations (R8, R22). -/
theorem Invariant.size_le_storage {s : State} (h : Invariant s) : s.size.toNat ≤ 8 * s.params.arrayBytes :=
  h.size_le_cap

/-- BA_TEST answers: a position below SIZE has its byte in the storage (R72). -/
theorem execBaTest_answers {s : State} (h : s.size.toNat ≤ 8 * s.params.arrayBytes) : ∃ t, execBaTest s = .next t := by
  unfold execBaTest
  split
  · exact ⟨_, rfl⟩
  · next hlt =>
    rw [BitVec.not_le, BitVec.lt_def] at hlt
    rw [testBit_ok (byteOf_lt hlt h)]
    exact ⟨_, rfl⟩

/-- The three mutating bit commands answer, for the same reason (R72). -/
theorem mutateBit_answers (w : Word) (f : Byte → Byte → Byte) {s : State} (h : s.size.toNat ≤ 8 * s.params.arrayBytes) :
    ∃ t, mutateBit w f s = .next t := by
  unfold mutateBit
  split
  · exact ⟨_, rfl⟩
  · split
    · exact ⟨_, rfl⟩
    · next hlt =>
      rw [BitVec.not_le, BitVec.lt_def] at hlt
      rw [modifyBit_ok f (byteOf_lt hlt h)]
      exact ⟨_, rfl⟩

/-- BF_INSERT answers: a configured filter has a size, and its bits exist (R84). -/
theorem execBfInsert_answers {s : State} (h : Invariant s) : ∃ t, execBfInsert s = .next t := by
  unfold execBfInsert
  split
  · exact ⟨_, rfl⟩
  · next hc =>
    split
    · exact ⟨_, rfl⟩
    · have hm := (h.configured_sized (by simpa using hc)).1
      obtain ⟨u, hu⟩ := insertRounds_ok (keyBytes s) s.filterK.toNat 0 hm h.size_le_storage
      exact ⟨_, by rw [hu, finish_ok]⟩

/-- BF_QUERY answers, for the same reason (R84). -/
theorem execBfQuery_answers {s : State} (h : Invariant s) : ∃ t, execBfQuery s = .next t := by
  unfold execBfQuery
  split
  · exact ⟨_, rfl⟩
  · next hc =>
    split
    · exact ⟨_, rfl⟩
    · have hm := (h.configured_sized (by simpa using hc)).1
      obtain ⟨b, hb⟩ := queryRounds_ok (keyBytes s) s.filterK.toNat 0 hm h.size_le_storage
      exact ⟨_, by rw [hb, andThen_ok, finish_ok]⟩

/-- Every command answers from a state of the invariant. -/
theorem exec_answers (i : Instr) {s : State} (h : Invariant s) : ∃ t, exec i s = .next t := by
  cases i with
  | hash => rw [exec, execHash]; split <;> exact ⟨_, rfl⟩
  | baInit => rw [exec, execBaInit]; split_ifs <;> exact ⟨_, rfl⟩
  | baTest => exact execBaTest_answers h.size_le_storage
  | baSet => exact mutateBit_answers _ _ h.size_le_storage
  | baClear => exact mutateBit_answers _ _ h.size_le_storage
  | baFlip => exact mutateBit_answers _ _ h.size_le_storage
  | bfConfig => rw [exec, execBfConfig]; split_ifs <;> exact ⟨_, rfl⟩
  | bfInsert => exact execBfInsert_answers h
  | bfQuery => exact execBfQuery_answers h
  | softReset => exact ⟨_, rfl⟩

/-- Every pending word completes from a state of the invariant. -/
theorem completePending_answers (w : Word) {s : State} (h : Invariant s) : ∃ t, completePending w s = .next t := by
  unfold completePending
  split
  · exact exec_answers _ h
  · exact ⟨_, rfl⟩

/-- Every event from the outside is served, from any state at all. -/
theorem outsideEvent_answers (e : Event) (s : State) : ∃ t, outsideEvent e s = .next t := by
  cases e with
  | hwReset => exact ⟨_, rfl⟩
  | access a =>
    cases a with
    | read off => exact ⟨_, rfl⟩
    | write off d =>
      simp only [outsideEvent, hostWrite]
      split
      · exact ⟨_, rfl⟩
      · split_ifs <;> exact ⟨_, rfl⟩

/-- Every step answers from a state of the invariant. -/
theorem step_answers {s : State} (h : Invariant s) : ∃ t, step s = .next t := by
  cases ho : outsideMoves s with
  | false =>
    obtain ⟨w, -, e⟩ := step_core ho
    exact e ▸ completePending_answers w h
  | true =>
    rw [step_outside ho, nextInput]
    split
    · exact ⟨_, rfl⟩
    · exact outsideEvent_answers _ _

/-- With a command pending, a step uses up one input or completes the command. -/
theorem step_uses_input_or_completes {s t : State} (hp : s.pend ≠ none) (h : step s = .next t) :
    t.inputs.length + 1 = s.inputs.length ∨ t.pend = none := by
  rcases step_cases h with ⟨ho, hin, -⟩ | ⟨-, x, rest, hin, he⟩ | ⟨-, w, -, hc⟩
  · have hb := (busy_eq_true s).mpr hp
    simp [outsideMoves, hb, hin, nextArrivesEarly] at ho
  · left
    rw [outsideEvent_inputs he, hin, List.length_cons]
  · exact .inr (completePending_clears hc).1

/-- Settles O59, by induction on the number of inputs the outside has queued. -/
theorem pendingCommandCompletes : Obligations.PendingCommandCompletes := by
  intro s
  induction hn : s.inputs.length generalizing s with
  | zero =>
    intro h hp
    obtain ⟨t, ht⟩ := step_answers h
    refine ⟨1, t, le_rfl, core_run_succ ht 0, (step_uses_input_or_completes hp ht).resolve_left ?_⟩
    omega
  | succ n ih =>
    intro h hp
    obtain ⟨t, ht⟩ := step_answers h
    by_cases hpt : t.pend = none
    · exact ⟨1, t, by omega, core_run_succ ht 0, hpt⟩
    · have hlen := (step_uses_input_or_completes hp ht).resolve_right hpt
      obtain ⟨k, u, hk, hrun, hu⟩ := ih t (by omega) (step_invariant h ht) hpt
      exact ⟨k + 1, u, by omega, (core_run_succ ht k).trans hrun, hu⟩

end Sys2Proof.Machine
end

section
/-! What the outside cannot do to a pending command, and what a command cannot see of KEY (R24, R27, R121, R122). -/

namespace Sys2Proof.Machine

/-- Whether a step is a reset is read off the input it serves. -/
theorem takesReset_of_input {s : State} {x : Input} {rest : List Input} (hin : s.inputs = x :: rest)
    (ho : outsideMoves s = true) : takesReset s = isResetEvent x.event := by
  simp [takesReset, hin, ho]

/-- While a command is pending a write that is no SOFT_RESET changes nothing but, at most, OVR, which it sets (R121). -/
theorem writeTarget_pending {s : State} (hp : s.pend ≠ none) (tg : Target) (d : Word) :
    writeTarget tg d s = { s with ovr := true } ∨ writeTarget tg d s = s := by
  rcases writeTarget_cases tg d s with ⟨-, e⟩ | e | ⟨hn, -⟩ | ⟨hn, -⟩ | ⟨hn, -⟩
  · exact .inl e
  · exact .inr e
  · exact absurd hn hp
  · exact absurd hn hp
  · exact absurd hn hp

/-- While a command is pending an event that is no reset leaves all but the HOST side and OVR as it was. -/
theorem outsideEvent_pending {e : Event} {s t : State} (hp : s.pend ≠ none) (he : isResetEvent e = false)
    (h : outsideEvent e s = .next t) :
    t = { s with ovr := t.ovr, log := t.log, draws := t.draws } ∧ (s.ovr = true → t.ovr = true) := by
  rcases outsideEvent_cases h with ⟨hr, -⟩ | ⟨-, ⟨l, n, rfl⟩ | ⟨off, d, tg, l, -, -, -, rfl⟩⟩
  · rw [he] at hr; cases hr
  · exact ⟨rfl, id⟩
  · rcases writeTarget_pending hp tg d with e | e <;> rw [e]
    · exact ⟨rfl, fun _ => rfl⟩
    · exact ⟨rfl, id⟩

/-- Settles O24: the step is one input, which no reset is, served while a command is pending. -/
theorem hostCannotDisturbAPendingCommand : Obligations.HostCannotDisturbAPendingCommand := by
  intro s t hp ho hr h
  rcases step_cases h with ⟨-, -, rfl⟩ | ⟨-, x, rest, hin, he⟩ | ⟨ho', -⟩
  · exact ⟨rfl, id⟩
  · rw [takesReset_of_input hin ho] at hr
    obtain ⟨e, hovr⟩ := outsideEvent_pending (s := { s with inputs := rest }) hp hr he
    exact ⟨e ▸ rfl, hovr⟩
  · rw [ho] at ho'; cases ho'

/-- The insert loop works on its key argument: it neither reads nor writes the key buffer. -/
theorem insertRounds_withKey (k : Memory) {key : List Byte} {n i : Nat} {s t : State}
    (h : insertRounds key n i s = .ok t) : insertRounds key n i { s with key := k } = .ok { t with key := k } := by
  induction n generalizing i s with
  | zero => cases h; rfl
  | succ n ih =>
    rw [insertRounds] at h ⊢
    obtain ⟨x, hx, h⟩ := andThen_cases h
    obtain ⟨u, hu, h⟩ := andThen_cases h
    obtain ⟨hb, rfl⟩ := modifyBit_cases hu
    rw [hx, andThen_ok, modifyBit_ok (s := { s with key := k }) _ hb, andThen_ok]
    exact ih h

/-- The query loop does not read the key buffer either. -/
theorem queryRounds_withKey (k : Memory) (key : List Byte) (s : State) (n i : Nat) :
    queryRounds key { s with key := k } n i = queryRounds key s n i := by
  induction n generalizing i with
  | zero => rfl
  | succ n ih => simp only [queryRounds, ih]; rfl

/-- HASH sees of KEY only the bytes of the command's key (R70). -/
theorem execHash_withKey {k : Memory} {s t : State} (hk : keyBytes { s with key := k } = keyBytes s)
    (h : execHash s = .next t) : execHash { s with key := k } = .next { t with key := k } := by
  rw [execHash, hk]
  rcases execHash_cases h with ⟨hl, rfl⟩ | ⟨hl, rfl⟩
  · rw [if_pos hl]; rfl
  · rw [if_neg (Nat.not_lt.mpr hl)]; rfl

/-- BF_INSERT sees of KEY only the bytes of the command's key (R87). -/
theorem execBfInsert_withKey {k : Memory} {s t : State} (hk : keyBytes { s with key := k } = keyBytes s)
    (h : execBfInsert s = .next t) : execBfInsert { s with key := k } = .next { t with key := k } := by
  rw [execBfInsert, hk]
  rcases execBfInsert_cases h with ⟨hc, rfl⟩ | ⟨hc, hl, rfl⟩ | ⟨hc, hl, u, hu, rfl⟩
  · rw [if_pos hc]; rfl
  · rw [if_neg (by simp [hc]), if_pos hl]; rfl
  · rw [if_neg (by simp [hc]), if_neg (Nat.not_lt.mpr hl), insertRounds_withKey k hu]; rfl

/-- BF_QUERY sees of KEY only the bytes of the command's key (R88). -/
theorem execBfQuery_withKey {k : Memory} {s t : State} (hk : keyBytes { s with key := k } = keyBytes s)
    (h : execBfQuery s = .next t) : execBfQuery { s with key := k } = .next { t with key := k } := by
  rw [execBfQuery, hk, queryRounds_withKey]
  rcases execBfQuery_cases h with ⟨hc, rfl⟩ | ⟨hc, hl, rfl⟩ | ⟨hc, hl, b, hb, rfl⟩
  · rw [if_pos hc]; rfl
  · rw [if_neg (by simp [hc]), if_pos hl]; rfl
  · rw [if_neg (by simp [hc]), if_neg (Nat.not_lt.mpr hl), hb]; rfl

/-- Settles O30: the two states have the same command key, and the three commands see nothing else of KEY. -/
theorem bytesBeyondKeyLenHaveNoEffect : Obligations.BytesBeyondKeyLenHaveNoEffect := by
  intro s t k i hi hread h
  have hk : keyBytes { s with key := k } = keyBytes s := keyBytes_congr rfl hread
  rcases hi with rfl | rfl | rfl
  · exact execHash_withKey hk h
  · exact execBfInsert_withKey hk h
  · exact execBfQuery_withKey hk h

end Sys2Proof.Machine
end

section
/-! What one access, one completion and one reset do in a given state: the registers of the window as HOST reads and writes
them (R17 to R20, R36), the step of a pending command (R54), and the reset state (R32). -/

namespace Sys2Proof.Machine

/-- Settles O3: the outside does not move, so the step is the completion, which runs the decoded command. -/
theorem stepRunsThePendingCommand : Obligations.StepRunsThePendingCommand := by
  intro s w i hw hin hd
  simp [step, hw, hin, completePending, hd]

/-- STATUS reads 0 after a reset (R32). -/
theorem resetBlock_status (s : State) : s.resetBlock.status = 0 := by
  show State.reset.status = 0
  decide

/-- The state a reset leaves has the values R32 lists, for the parameters of the block. -/
theorem resetBlock_hasListedResetValues (s : State) : hasListedResetValues s.params s.resetBlock :=
  ⟨rfl, resetBlock_status s, rfl, rfl, rfl, rfl, rfl, rfl, rfl, rfl, rfl, rfl, rfl, rfl, rfl, rfl, rfl, memory_read_nil,
    memory_read_nil⟩

/-- Settles O8: both resets answer `resetBlock`, and `State.reset` is a `resetBlock` too. -/
theorem resetGivesTheListedState : Obligations.ResetGivesTheListedState :=
  ⟨fun s => ⟨s.resetBlock, rfl, rfl, resetBlock_hasListedResetValues s, rfl, rfl, rfl, rfl⟩,
    resetBlock_hasListedResetValues State.reset⟩

/-- A register's offset reaches the register (R17, R35). -/
theorem decodeOffset_regOff (p : Params) (r : Reg) : decodeOffset p (regOff r) = .ok (.reg r) := by
  cases r <;> rfl

/-- A read of a register, RESULT while BUSY = 1 apart, returns its value and changes only the log (R36). -/
theorem hostRead_regOff {s : State} {r : Reg} (h : r = .result → s.pend = none) :
    hostRead (regOff r) s = s.record (.read (regOff r)) (.data (regValue r s)) := by
  have hr : readReg r s = (regValue r s, s) := if_neg fun ⟨e, hb⟩ => (busy_eq_true s).mp hb (h e)
  simp only [hostRead, decodeOffset_regOff, readTarget, hr]

/-- The registers but RESULT: a read of one of these returns its value whether a command is pending or not (R36, R122). -/
def alwaysReadable : List Reg :=
  [.cmd, .status, .arg, .keyLen, .cfgM, .cfgK, .size, .filterK, .errArg, .capBits, .capKey]

/-- Settles O13: the listed pairs are the offsets and values of the registers but RESULT. -/
theorem registerReadsReturnTheirValues : Obligations.RegisterReadsReturnTheirValues := by
  intro s
  refine ⟨fun off v hmem => ?_, fun hp => hostRead_regOff (r := .result) fun _ => hp⟩
  have hmem : (off, v) ∈ alwaysReadable.map fun r => (regOff r, regValue r s) := hmem
  obtain ⟨r, hr, e⟩ := List.mem_map.mp hmem
  cases e
  exact hostRead_regOff fun e => absurd (e ▸ hr) (by decide)

/-- With nothing pending, faulted or not, a write to an operand register stores the word and changes only the log beside
it (R20, R102). -/
theorem hostWrite_operand {s : State} {r : Reg} (hr : isOperand r = true) (hp : s.pend = none) (d : Word) :
    hostWrite (regOff r) d s = .next ((writeOperand r d s).record (.write (regOff r) d) .done) := by
  have hcmd : r ≠ .cmd := by rintro rfl; cases hr
  have hb := (busy_eq_false s).mpr hp
  simp [hostWrite, decodeOffset_regOff, writeTarget, hcmd, hr, hb]

/-- Settles O17, register by register. -/
theorem operandWritesAreStored : Obligations.OperandWritesAreStored := fun _ d hp =>
  ⟨hostWrite_operand (r := .arg) rfl hp d, hostWrite_operand (r := .keyLen) rfl hp d,
    hostWrite_operand (r := .cfgM) rfl hp d, hostWrite_operand (r := .cfgK) rfl hp d⟩

/-- The four flags of STATUS (R19). -/
theorem status_flags (s : State) :
    s.status.getLsbD 0 = s.busy ∧ s.status.getLsbD 1 = s.fault ∧ s.status.getLsbD 2 = s.configured ∧
      s.status.getLsbD 3 = s.ovr := by
  simp only [State.status, BitVec.getLsbD_append]
  simp

/-- The fields of STATUS above the flags, reserved ones too, from bit 4 up (R19): each is shown bit by bit. -/
theorem status_fields (s : State) :
    s.status.extractLsb' 4 4 = 0 ∧ s.status.extractLsb' 8 4 = errCodeBits s.errCode ∧ s.status.extractLsb' 12 4 = 0 ∧
      s.status.extractLsb' 16 8 = s.errOp ∧ s.status.extractLsb' 24 8 = 0 := by
  refine ⟨?_, ?_, ?_, ?_, ?_⟩ <;>
  · apply BitVec.eq_of_getLsbD_eq
    intro i hi
    simp only [BitVec.getLsbD_extractLsb', State.status, BitVec.getLsbD_append]
    interval_cases i <;> simp

/-- Settles O14, from the flags and the fields; the codes are read off the table of `errCodeBits`. -/
theorem statusFieldLayout : Obligations.StatusFieldLayout := by
  intro s
  obtain ⟨hbusy, hfault, hconf, hovr⟩ := status_flags s
  obtain ⟨h4, h8, h12, h16, h24⟩ := status_fields s
  refine ⟨hbusy ▸ busy_eq_true s, hfault, hconf, hovr, h4, h12, h16, h24, fun c n hc e => ?_⟩
  rw [h8, e]
  exact (by decide : ∀ r ∈ _, (errCodeBits r.1).toNat = r.2) (c, n) hc

end Sys2Proof.Machine
end

section
/-! What each offset of the window reaches (R35), the accesses that are bus errors (R34, R37), and the writes that are
ignored (R36). -/

namespace Sys2Proof.Machine

/-- The decoding of an aligned offset beyond the registers: the two windows, and what is in neither is reserved (R35). -/
theorem decodeOffset_beyondRegisters (p : Params) {a : Word} (ha : a.toNat % 4 = 0) (h : 0x30 ≤ a.toNat) :
    decodeOffset p a =
      if 0x1000 ≤ a.toNat ∧ a.toNat < 0x1000 + p.keyMax then .ok (.keyWord ((a.toNat - 0x1000) / 4))
      else if 0x80000000 ≤ a.toNat ∧ a.toNat < 0x80000000 + p.arrayBytes then
        .ok (.rawWord ((a.toNat - 0x80000000) / 4))
      else .error .reserved := by
  rw [decodeOffset, if_pos ha, regAt_none h]
  rfl

/-- An offset whose bits 1:0 are not 0 is misaligned (R34). -/
theorem decodeOffset_misaligned (p : Params) {a : Word} (h : a.extractLsb' 0 2 ≠ 0) :
    decodeOffset p a = .error .misaligned := by
  refine if_neg fun e => h (BitVec.eq_of_toNat_eq ?_)
  rw [low_bits_toNat, e]
  rfl

/-- An aligned offset up to 0x2C is a register's (R17). -/
theorem regOffset_of_le {n : Nat} (hn : n % 4 = 0) (h : n ≤ 0x2C) : ∃ r, regOffset r = n := by
  have hall : ∀ k < 12, ∃ r ∈ ([.cmd, .status, .arg, .result, .keyLen, .cfgM, .cfgK, .size, .filterK, .errArg, .capBits,
    .capKey] : List Reg), regOffset r = 4 * k := by decide
  obtain ⟨r, -, hr⟩ := hall (n / 4) (by omega)
  exact ⟨r, by omega⟩

/-- An aligned offset of the key window reaches its word (R35, R38). -/
theorem decodeOffset_keyWindow {p : Params} {a : Word} (ha : a.toNat % 4 = 0) (h1 : 0x1000 ≤ a.toNat)
    (h2 : a.toNat < 0x1000 + p.keyMax) : decodeOffset p a = .ok (.keyWord ((a.toNat - 0x1000) / 4)) := by
  rw [decodeOffset_beyondRegisters p ha (by omega), if_pos ⟨h1, h2⟩]

/-- An aligned offset of the raw window reaches its word, the key window ending below it (R35, R40). -/
theorem decodeOffset_rawWindow {p : Params} (hp : p.legal = true) {a : Word} (ha : a.toNat % 4 = 0)
    (h1 : 0x80000000 ≤ a.toNat) (h2 : a.toNat < 0x80000000 + p.arrayBytes) :
    decodeOffset p a = .ok (.rawWord ((a.toNat - 0x80000000) / 4)) := by
  obtain ⟨-, -, hk, -⟩ := legal_cases hp
  rw [decodeOffset_beyondRegisters p ha (by omega), if_neg (by omega), if_pos ⟨h1, h2⟩]

/-- The three reserved ranges (R35). -/
theorem decodeOffset_reserved {p : Params} (hp : p.legal = true) {a : Word} (ha : a.toNat % 4 = 0)
    (h : 0x30 ≤ a.toNat ∧ a.toNat < 0x1000 ∨ 0x1000 + p.keyMax ≤ a.toNat ∧ a.toNat < 0x80000000 ∨
      0x80000000 + p.arrayBytes ≤ a.toNat) : decodeOffset p a = .error .reserved := by
  obtain ⟨-, -, hk, -⟩ := legal_cases hp
  rw [decodeOffset_beyondRegisters p ha (by omega), if_neg (by omega), if_neg (by omega)]

/-- Settles O10: one lemma for each kind of range; the bounds of R8 keep every range from being empty. -/
theorem offsetTableIsTotal : Obligations.OffsetTableIsTotal := by
  intro p a hp ha
  obtain ⟨hk4, hk, hk', hb4, hb, hb'⟩ := legal_cases hp
  refine ⟨fun h => ?_, fun h h' => ?_, fun h h' => ?_, fun h h' => ?_, fun h h' => ?_, fun h => ?_, hk, by omega, hb,
    by omega⟩
  · obtain ⟨r, hr⟩ := regOffset_of_le ha h
    have e : a = regOff r := by rw [regOff, hr, BitVec.ofNat_toNat, BitVec.setWidth_eq]
    exact ⟨r, e ▸ decodeOffset_regOff p r, hr⟩
  · exact decodeOffset_reserved hp ha (.inl ⟨h, by omega⟩)
  · exact decodeOffset_keyWindow ha h (by omega)
  · exact decodeOffset_reserved hp ha (.inr (.inl ⟨h, by omega⟩))
  · exact decodeOffset_rawWindow hp ha h (by omega)
  · exact decodeOffset_reserved hp ha (.inr (.inr h))

/-- Where the offset decodes to a bus error, a read and a write of it change only the log, which holds the error (R37). -/
theorem access_busError {s : State} {off : Word} {e : BusError} (h : decodeOffset s.params off = .error e) (d : Word) :
    outsideEvent (.access (.read off)) s = .next (s.record (.read off) (.busError e)) ∧
      outsideEvent (.access (.write off d)) s = .next (s.record (.write off d) (.busError e)) := by
  simp only [outsideEvent, hostRead, hostWrite, h, and_self]

/-- Settles O11: a misaligned offset decodes to a bus error. -/
theorem misalignedAccessIsNotPerformed : Obligations.MisalignedAccessIsNotPerformed := fun s _ d h =>
  access_busError (decodeOffset_misaligned s.params h) d

/-- Settles O12: so does a reserved one. -/
theorem reservedOffsetIsABusError : Obligations.ReservedOffsetIsABusError := fun _ _ d hp ha h =>
  access_busError (decodeOffset_reserved hp ha h) d

/-- The registers HOST may only read: a write to one is ignored (R36). -/
def readOnlyRegs : List Reg := [.status, .result, .size, .filterK, .errArg, .capBits, .capKey]

/-- A write is ignored where its target is not CMD and takes no write: only the log changes. -/
theorem hostWrite_ignored {s : State} {off d : Word} {tg : Target} (ht : decodeOffset s.params off = .ok tg)
    (hc : tg ≠ .reg .cmd) (hw : writeTarget tg d s = s) :
    hostWrite off d s = .next (s.record (.write off d) .done) := by
  simp only [hostWrite, ht, hc, hw, false_and, if_false]

/-- Settles O19: neither a read-only register nor a raw word takes a write. -/
theorem readOnlyWritesAreIgnored : Obligations.ReadOnlyWritesAreIgnored := by
  rintro s off d hp (hmem | ⟨ha, h1, h2⟩)
  · have hmem : off ∈ readOnlyRegs.map regOff := hmem
    obtain ⟨r, hr, rfl⟩ := List.mem_map.mp hmem
    obtain ⟨hcmd, hop⟩ := (by decide : ∀ r ∈ readOnlyRegs, r ≠ .cmd ∧ isOperand r = false) r hr
    refine hostWrite_ignored (decodeOffset_regOff s.params r) (by simpa using hcmd) ?_
    simp [writeTarget, hcmd, hop]
  · exact hostWrite_ignored (decodeOffset_rawWindow hp ha h1 h2) nofun rfl

end Sys2Proof.Machine
end

section
/-! HOST reads: what they leave unchanged (R36), and the words of the key window and of the raw window (R38, R40, R41). -/

namespace Sys2Proof.Machine

/-- Settles O15: the law of a HOST read, as the event. -/
theorem readsHaveNoSideEffect : Obligations.ReadsHaveNoSideEffect := by
  intro s off
  obtain ⟨r, n, e⟩ := hostRead_cases off s
  exact ⟨r, n, congrArg Host.Outcome.next e⟩

/-- The offset of a key-window word reaches that word (R38). -/
theorem decodeOffset_keyOff {p : Params} (hp : p.legal = true) {j : Nat} (hj : j < p.keyMax / 4) :
    decodeOffset p (keyOff j) = .ok (.keyWord j) := by
  obtain ⟨-, -, hk, -⟩ := legal_cases hp
  have hoff : (keyOff j).toNat = 0x1000 + 4 * j := Nat.mod_eq_of_lt (by unfold keyWindowBase; omega)
  rw [decodeOffset_keyWindow (by omega) (by omega) (by omega), hoff]
  congr 2
  omega

/-- The offset of a raw-window word reaches that word (R40). -/
theorem decodeOffset_rawOff {p : Params} (hp : p.legal = true) {w : Nat} (hw : w < p.arrayBytes / 4) :
    decodeOffset p (rawOff w) = .ok (.rawWord w) := by
  obtain ⟨-, -, -, -, -, hb⟩ := legal_cases hp
  have hoff : (rawOff w).toNat = 0x80000000 + 4 * w := Nat.mod_eq_of_lt (by unfold rawWindowBase; omega)
  rw [decodeOffset_rawWindow hp (by omega) (by omega) (by omega), hoff]
  congr 2
  omega

/-- A read of a key-window word returns its four bytes, busy or not, and changes only the log (R38). -/
theorem hostRead_keyOff {s : State} (hp : s.params.legal = true) {j : Nat} (hj : j < s.params.keyMax / 4) :
    hostRead (keyOff j) s = s.record (.read (keyOff j)) (.data (keyWordAt j s)) := by
  simp only [hostRead, decodeOffset_keyOff hp hj, readTarget]

/-- With nothing pending a read of a raw-window word returns its four bytes and changes only the log (R40). -/
theorem hostRead_rawOff {s : State} (hp : s.params.legal = true) (hn : s.pend = none) {w : Nat}
    (hw : w < s.params.arrayBytes / 4) :
    hostRead (rawOff w) s = s.record (.read (rawOff w)) (.data (rawWordAt w s)) := by
  have hb := (busy_eq_false s).mpr hn
  simp [hostRead, decodeOffset_rawOff hp hw, readTarget, readRaw, hb]

/-- With nothing pending a write to a key-window word stores its bytes and changes only the log beside KEY (R38). -/
theorem hostWrite_keyOff {s : State} (hp : s.params.legal = true) (hn : s.pend = none) {j : Nat}
    (hj : j < s.params.keyMax / 4) (d : Word) :
    hostWrite (keyOff j) d s = .next ((writeKeyWord j d s).record (.write (keyOff j) d) .done) := by
  have hb := (busy_eq_false s).mpr hn
  simp [hostWrite, decodeOffset_keyOff hp hj, writeTarget, hb]

/-- The four bytes a key-window write stores (R38). -/
theorem writeKeyWord_read_written {s : State} (hw : s.key.wf) (j : Nat) (d : Word) {i : Nat} (hi : i < 4) :
    (writeKeyWord j d s).key.read (4 * j + i) = leByte d i := by
  rw [writeKeyWord_read hw]
  interval_cases i <;> simp

/-- A key-window write changes no byte but its four. -/
theorem writeKeyWord_read_other {s : State} (hw : s.key.wf) (j : Nat) (d : Word) {a : Nat}
    (ha : a < 4 * j ∨ 4 * j + 4 ≤ a) : (writeKeyWord j d s).key.read a = s.key.read a := by
  rw [writeKeyWord_read hw, if_neg (by omega), if_neg (by omega), if_neg (by omega), if_neg (by omega)]

/-- A key-window word whose bytes are those of `d` is `d` (R38, R42). -/
theorem keyWordAt_of_bytes {s : State} {j : Nat} {d : Word} (h : ∀ i < 4, s.key.read (4 * j + i) = leByte d i) :
    keyWordAt j s = d := by
  have h0 : s.key.read (4 * j) = leByte d 0 := h 0 (by decide)
  rw [keyWordAt, h0, h 1 (by decide), h 2 (by decide), h 3 (by decide), leWord_leByte]

/-- Settles O20: the write stores the bytes of `d`, and any word with those bytes reads back as `d`. -/
theorem keyWindowIsLittleEndian : Obligations.KeyWindowIsLittleEndian := by
  intro s j d hinv hn hj
  have hwritten : ∀ i < 4, (writeKeyWord j d s).key.read (4 * j + i) = leByte d i := fun i hi =>
    writeKeyWord_read_written hinv.key_wf j d hi
  refine ⟨_, hostWrite_keyOff hinv.params_legal hn hj d, rfl, hwritten,
    fun a ha => writeKeyWord_read_other hinv.key_wf j d ha, fun u hu hsame => ?_⟩
  have hword : keyWordAt j u = d := keyWordAt_of_bytes fun i hi => (hsame i hi).trans (hwritten i hi)
  rw [← hword]
  exact hostRead_keyOff (hu ▸ hinv.params_legal) (hu ▸ hj)

/-- The four bytes of the command's key from `a` on are those of the key buffer, below KEY_LEN (R27). -/
theorem keyBytes_take_four {s : State} {a : Nat} (h : a + 3 < s.keyLen.toNat) :
    ((keyBytes s).drop a).take 4 = [s.key.read a, s.key.read (a + 1), s.key.read (a + 2), s.key.read (a + 3)] := by
  apply List.ext_getElem
  · simp [keyBytes, keyPrefix]
    omega
  · intro i _ hi
    have hi : i < 4 := hi
    interval_cases i <;> simp [keyBytes, keyPrefix]

/-- Four little-endian bytes, each at its place in the word (R42). -/
theorem leWord_four_or (b0 b1 b2 b3 : Byte) :
    leWord [b0, b1, b2, b3] =
      b0.setWidth 32 ||| b1.setWidth 32 <<< 8 ||| b2.setWidth 32 <<< 16 ||| b3.setWidth 32 <<< 24 := by
  simp [leWord, BitVec.shiftLeft_or_distrib, ← BitVec.shiftLeft_add, BitVec.or_assoc]

/-- Settles O21: both words are the little-endian word of the same four bytes. -/
theorem keyWindowWordIsHashChunk : Obligations.KeyWindowWordIsHashChunk := fun _ _ h =>
  ⟨congrArg leWord (keyBytes_take_four h), leWord_four_or _ _ _ _⟩

/-- Bit `k` of a raw-window word is bit `k mod 8` of its byte `k div 8`. -/
theorem rawWordAt_getLsbD (s : State) (w : Nat) {k : Nat} (hk : k < 32) :
    (rawWordAt w s).getLsbD k = (rawByte (4 * w + k / 8) s).getLsbD (k % 8) := by
  rw [← rawWordAt_byte s w (k / 8) (by omega), BitVec.getLsbD_extractLsb', Nat.div_add_mod]
  simp [Nat.mod_lt]

/-- Below SIZE the raw window's bytes hold the bits of the bit array (R40, R41). -/
theorem rawByte_getLsbD {s : State} {i : Nat} (hi : i < s.size.toNat) :
    (rawByte (i / 8) s).getLsbD (i % 8) = s.bit i := by
  rw [rawByte, if_pos (by omega)]
  rfl

/-- Settles O22: bit `i mod 32` of word `i div 32` is bit `i mod 8` of byte `i div 8`. -/
theorem rawWindowShowsTheBitArray : Obligations.RawWindowShowsTheBitArray := by
  intro s i hinv hn hi
  have hsize : s.size.toNat ≤ 8 * s.params.arrayBytes := hinv.size_le_storage
  obtain ⟨-, -, -, hb4, -⟩ := legal_cases hinv.params_legal
  refine ⟨_, hostRead_rawOff hinv.params_legal hn (by omega), ?_⟩
  calc (rawWordAt (i / 32) s).getLsbD (i % 32)
      = (rawByte (4 * (i / 32) + i % 32 / 8) s).getLsbD (i % 32 % 8) := rawWordAt_getLsbD s _ (by omega)
    _ = (rawByte (i / 8) s).getLsbD (i % 8) := by
      rw [show 4 * (i / 32) + i % 32 / 8 = i / 8 by omega, show i % 32 % 8 = i % 8 by omega]
    _ = s.bit i := rawByte_getLsbD hi

/-- Settles O23: the word is `rawWordAt`, whose bytes are `rawByte`. -/
theorem rawWindowBytes : Obligations.RawWindowBytes := fun s w hp hn hw =>
  ⟨_, hostRead_rawOff hp hn hw, fun i hi => rawWordAt_byte s w i hi⟩

end Sys2Proof.Machine
end

section
/-! The step as HOST sees it: its next input (R46, R114), and a STATUS read that returns BUSY = 0 (R47). -/

namespace Sys2Proof.Machine

/-- Settles O5: where the outside moves the step is the next input, and with none the state is held. -/
theorem stepServesTheNextInputOrIdles : Obligations.StepServesTheNextInputOrIdles := by
  refine ⟨fun s x rest hin ho => ?_, fun s hp hin => ?_⟩
  · rw [step_outside ho, nextInput, hin]
  · rw [step_outside (outsideMoves_none hp), nextInput, hin]

/-- A completion makes no access, so the log stays. -/
theorem completePending_log {w : Word} {s t : State} (h : completePending w s = .next t) : t.log = s.log := by
  rcases completePending_cases h with ⟨i, hi, -, hex⟩ | rfl
  · rcases exec_cases hi hex with ⟨c, a, -, rfl⟩ | e
    · rfl
    · rw [e]
  · rfl

/-- A HOST write logs itself, whatever its offset and its effect. -/
theorem hostWrite_logs {off d : Word} {s t : State} (h : hostWrite off d s = .next t) :
    ∃ r l, t.log = { access := .write off d, response := r } :: l := by
  unfold hostWrite at h
  split at h
  · cases h
    exact ⟨_, _, rfl⟩
  · split at h <;>
    · cases h
      exact ⟨_, _, rfl⟩

/-- A step that logs a read is that read, served while the outside moves. -/
theorem step_logs_read {s t : State} {off : Word} {r : Response} (h : step s = .next t)
    (hlog : t.log = { access := .read off, response := r } :: s.log) :
    ∃ rest, t = hostRead off { s with inputs := rest } := by
  rcases step_cases h with ⟨-, -, rfl⟩ | ⟨-, x, rest, -, he⟩ | ⟨-, w, -, hc⟩
  · simp at hlog
  · refine ⟨rest, ?_⟩
    cases hx : x.event with
    | hwReset =>
      rw [hx] at he
      cases he
      simp at hlog
    | access a =>
      rw [hx] at he
      cases a with
      | read off' =>
        cases he
        obtain ⟨r', n, e⟩ := hostRead_cases off' { s with inputs := rest }
        rw [e] at hlog
        cases hlog
        rfl
      | write off' d =>
        obtain ⟨r', l, e⟩ := hostWrite_logs he
        rw [hlog] at e
        cases e
  · rw [completePending_log hc] at hlog
    simp at hlog

/-- Settles O25: the step is a read of STATUS, whose bit 0 is BUSY and which leaves PEND as it was. -/
theorem statusPollSeesCompletion : Obligations.StatusPollSeesCompletion := by
  intro s t v h hlog hv
  obtain ⟨rest, e⟩ := step_logs_read h hlog
  have hread : t = State.record (.read 0x004) (.data s.status) { s with inputs := rest } :=
    e.trans (hostRead_regOff (r := .status) nofun)
  have hval : s.status = v := by
    rw [hread] at hlog
    cases hlog
    rfl
  have hbusy : s.busy = false := by rw [← (status_flags s).1, hval, hv]
  have hp := (busy_eq_false s).mp hbusy
  exact ⟨hp, hread ▸ hp⟩

end Sys2Proof.Machine
end

section
/-! The decoder accepts exactly the encoded commands (R53 to R55), and with it: the completion of a word that is no queued
command (R54, R97, R101), the writes to CMD (R50, R95), and the step that always answers (R12, R28, R72, R84). -/

namespace Sys2Proof

/-- The opcode map holds every command under its opcode (R53). -/
theorem lookupOp_opcode (i : Instr) : lookupOp (opcode i) opcodeMap = some i := by cases i <;> decide

/-- Every command decodes back from its word. -/
theorem decode_encode (i : Instr) : decode (encode i) = .ok i := by
  rw [decode, if_pos (mbzField_encode i), opField_encode, lookupOp_opcode]

/-- A word with the two fields of a command's word is that word, the fields being all of it (R51). -/
theorem eq_encode_of_fields {w : Word} {i : Instr} (hm : mbzField w = 0) (ho : opField w = opcode i) : w = encode i := by
  rw [word_eq_fields w, word_eq_fields (encode i), hm, ho, mbzField_encode, opField_encode]

/-- The decoder accepts the encoded commands and nothing else (R55). -/
theorem decode_ok_iff {w : Word} {i : Instr} : decode w = .ok i ↔ w = encode i := by
  constructor
  · intro h
    obtain ⟨hm, ho⟩ := decode_ok_fields h
    exact eq_encode_of_fields hm ho
  · rintro rfl
    exact decode_encode i

/-- Every queued command decodes back from its word at a completion (R54). -/
theorem decodePending_encode {i : Instr} (hi : i ≠ .softReset) : decodePending (encode i) = .ok i := by
  rw [decodePending, decode_encode]
  split
  · next e => exact absurd (Except.ok.inj e) hi
  · rfl

/-- The decode at a completion accepts the queued commands' words and nothing else (R54). -/
theorem decodePending_ok_iff {w : Word} {i : Instr} : decodePending w = .ok i ↔ w = encode i ∧ i ≠ .softReset := by
  constructor
  · intro h
    obtain ⟨hd, hi⟩ := decodePending_ok h
    exact ⟨decode_ok_iff.mp hd, hi⟩
  · rintro ⟨rfl, hi⟩
    exact decodePending_encode hi

/-- Settles O2: the two decoders, each with its own exact set of words. -/
theorem decodeAcceptsExactlyTheEncodings : Obligations.DecodeAcceptsExactlyTheEncodings :=
  ⟨fun _ _ => decode_ok_iff, fun _ _ => decodePending_ok_iff⟩

/-- Settles O1: the ten words are the encoded commands, in the order of the opcode map. -/
theorem opcodeMapWordsDecode : Obligations.OpcodeMapWordsDecode :=
  ⟨decode_encode .hash, decode_encode .baInit, decode_encode .baTest, decode_encode .baSet, decode_encode .baClear,
    decode_encode .baFlip, decode_encode .bfConfig, decode_encode .bfInsert, decode_encode .bfQuery,
    decode_encode .softReset⟩

end Sys2Proof

namespace Sys2Proof.Machine

/-- Settles O58: a completion answers because the invariant keeps every addressed byte in the storage and SIZE above 0
where a remainder is taken, an outside event answers from any state; `step_answers` has both. -/
theorem stepAlwaysAnswers : Obligations.StepAlwaysAnswers := fun _ h => step_answers h

/-- The words of the nine queued commands, as the opcode map writes them (R53, R54). -/
def queuedWords : List Word := [0x01, 0x10, 0x11, 0x12, 0x13, 0x14, 0x20, 0x21, 0x22]

/-- Every command but SOFT_RESET has its word among the queued ones. -/
theorem encode_mem_queuedWords {i : Instr} (hi : i ≠ .softReset) : encode i ∈ queuedWords := by
  cases i with
  | softReset => exact absurd rfl hi
  | _ => decide

/-- The completion of a word that is no queued command's faults ILLEGAL_CMD with the word as argument (R54, R97). -/
theorem completePending_illegal {w : Word} (h : w ∉ queuedWords) (s : State) :
    completePending w s = raiseFault w .illegalCmd w s := by
  unfold completePending
  split
  · next i hi =>
    obtain ⟨rfl, hne⟩ := decodePending_ok_iff.mp hi
    exact absurd (encode_mem_queuedWords hne) h
  · rfl

/-- A pending command that no input comes before is completed by the step (R16). -/
theorem step_of_pend {s : State} {w : Word} (hw : s.pend = some w) (hin : nextArrivesEarly s.inputs = false) :
    step s = completePending w s := by
  simp [step, hw, hin]

/-- Settles O6: the step is the completion, and the record is that of fault entry. -/
theorem illegalWordFaultsWhenCompleted : Obligations.IllegalWordFaultsWhenCompleted := by
  intro s w hw hin h
  exact (step_of_pend hw hin).trans (completePending_illegal h s)

/-- A write of SOFT_RESET's word to CMD runs it at once, whatever the state (R50, R95). -/
theorem hostWrite_cmd_softReset (s : State) :
    hostWrite (regOff .cmd) (encode .softReset) s =
      exec .softReset (s.record (.write (regOff .cmd) (encode .softReset)) .done) := by
  simp only [hostWrite, decodeOffset_regOff, and_self, if_true]

/-- A write of any other word to CMD is handed to `issue` undecoded (R50). -/
theorem hostWrite_cmd_issue {w : Word} (hw : w ≠ encode .softReset) (s : State) :
    hostWrite (regOff .cmd) w s = .next ((issue w s).record (.write (regOff .cmd) w) .done) := by
  simp only [hostWrite, decodeOffset_regOff, hw, and_false, if_false, writeTarget, if_true]

/-- Settles O4: the outside moves, and its move is the write of SOFT_RESET. -/
theorem stepRunsSoftResetAtTheWrite : Obligations.StepRunsSoftResetAtTheWrite := by
  intro s early rest hin hearly
  have hmoves : outsideMoves s = true := by
    cases hb : s.busy with
    | false => simp [outsideMoves, hb]
    | true => simp [outsideMoves, hin, nextArrivesEarly, hearly hb]
  exact (stepServesTheNextInputOrIdles.1 s _ rest hin hmoves).trans (hostWrite_cmd_softReset { s with inputs := rest })

/-- Settles O7: SOFT_RESET apart, the order is that of `issue`: BUSY, then FAULT. -/
theorem commandIssueOrder : Obligations.CommandIssueOrder := by
  intro s w
  by_cases hw : w = 0x000000FF
  · subst hw
    exact hostWrite_cmd_softReset s
  · refine (hostWrite_cmd_issue hw s).trans ?_
    simp only [issue, busy_eq_true, if_neg hw]
    split_ifs with hbusy hfault
    · rfl
    · rfl
    · rfl

end Sys2Proof.Machine
end

section
/-! The hash state machine reaches DONE with Hash32 of the key and no earlier (R69), and Hash32 of "hello" and of the
empty key (R66, R67). -/

namespace Sys2Proof.Machine

/-- With the full chunks used up, BODY hands the accumulator on to TAIL as it is. -/
theorem hashUnitStep_body_end (key : List Byte) (h : Word) :
    hashUnitStep key { phase := .body, h := h, j := key.length / 4 } =
      { phase := .tail, h := h, j := key.length / 4 } := by
  simp only [hashUnitStep, lt_irrefl, if_false]

/-- TAIL's transition is the tail round (R62). -/
theorem hashUnitStep_tail (key : List Byte) (h : Word) (j : Nat) :
    hashUnitStep key { phase := .tail, h := h, j := j } = { phase := .fold, h := tailRound key h, j := j } := by
  simp only [hashUnitStep, tailRound, ite_not]

/-- One transition before the last, the unit is in FIN5. -/
theorem hashUnitRun_fin5 (key : List Byte) (seed : Word) :
    (hashUnitRun key (key.length / 4 + 7) (hashUnitStart seed)).phase = .fin5 := by
  rw [hashUnitRun_add, hashUnitRun_body key seed _ le_rfl, hashUnitRun, hashUnitStep_body_end, hashUnitRun,
    hashUnitStep_tail]
  rfl

/-- After the chunks, the transitions from BODY to DONE are the tail, the length and the finalization (R62 to R64). -/
theorem hashUnitRun_done (key : List Byte) (seed : Word) :
    hashUnitRun key (key.length / 4 + 8) (hashUnitStart seed) =
      { phase := .done, h := hash32 key seed, j := key.length / 4 } := by
  rw [hashUnitRun_add, hashUnitRun_body key seed _ le_rfl, hashUnitRun, hashUnitStep_body_end, hashUnitRun,
    hashUnitStep_tail]
  rfl

/-- DONE has no way out. -/
theorem hashUnitRun_of_done (key : List Byte) (n : Nat) {u : HashUnit} (h : u.phase = .done) :
    hashUnitRun key n u = u := by
  induction n with
  | zero => rfl
  | succ n ih =>
    have hstep : hashUnitStep key u = u := by simp only [hashUnitStep, h]
    rw [hashUnitRun, hstep, ih]

/-- Settles O28: DONE comes with Hash32, and no earlier, since DONE is never left and the unit is in FIN5 one transition
before. -/
theorem hashUnitComputesHash32 : Obligations.HashUnitComputesHash32 := by
  intro key seed
  refine ⟨?_, ?_, fun n hn hdone => ?_⟩
  · rw [hashUnitRun_done]
  · rw [hashUnitRun_done]
  · obtain ⟨d, hd⟩ : ∃ d, key.length / 4 + 7 = n + d := Nat.exists_eq_add_of_le (by omega)
    have hfin5 := hashUnitRun_fin5 key seed
    rw [hd, hashUnitRun_add, hashUnitRun_of_done key d hdone, hdone] at hfin5
    cases hfin5

/-- Settles O26, by evaluating one full chunk, the tail of one byte and the finalization. -/
theorem hashOfHello : Obligations.HashOfHello := by
  unfold Obligations.HashOfHello
  decide

/-- Without chunks, tail or length, Hash32 is the finalization of the seed (R66). -/
theorem hash32_nil (seed : Word) : hash32 [] seed = avalanche seed :=
  congrArg avalanche (BitVec.xor_zero (x := seed))

/-- Settles O27: the written-out finalization is `avalanche`, which keeps 0. -/
theorem hashOfTheEmptyKey : Obligations.HashOfTheEmptyKey := by
  refine ⟨fun seed => hash32_nil seed, ?_⟩
  rw [hash32_nil]
  decide

end Sys2Proof.Machine
end

section
/-! The commands that take a key: HASH of a key that fits KEY (R70), and the length check of all three (R70, R87,
R88). -/

namespace Sys2Proof.Machine

/-- HASH with a key that fits KEY writes the hash and completes (R70). -/
theorem execHash_ok {s : State} (h : s.keyLen.toNat ≤ s.params.keyMax) :
    execHash s = .next { s with pend := none, result := hash32 (keyBytes s) s.arg } := by
  rw [execHash, if_neg (Nat.not_lt.mpr h), finish_ok]

/-- Settles O29: the hashed bytes are `keyBytes`. -/
theorem hashWritesResult : Obligations.HashWritesResult := fun _ h => execHash_ok h

/-- The record of a fault a command's completion raises (R101): ERR_OP is the command's opcode. -/
theorem raiseFault_encode (i : Instr) (c : ErrCode) (a : Word) (s : State) :
    raiseFault (encode i) c a s =
      .next { s with pend := none, fault := true, errCode := c, errOp := opcode i, errArg := a } := by
  rw [raiseFault, State.enterFault, opField_encode]

/-- The commands that take a key check its length: HASH at once, the filter commands when a filter is configured (R70,
R87, R88). -/
theorem exec_keyTooLong {i : Instr} {s : State} (hi : i = .hash ∨ i = .bfInsert ∨ i = .bfQuery)
    (hc : i = .hash ∨ s.configured = true) (hk : s.params.keyMax < s.keyLen.toNat) :
    exec i s = raiseFault (encode i) .keyLenErr s.keyLen s := by
  rcases hi with rfl | rfl | rfl
  · rw [exec, execHash, if_pos hk]
  · have hconf : s.configured = true := hc.resolve_left nofun
    rw [exec, execBfInsert, if_neg (by simp [hconf]), if_pos hk]
  · have hconf : s.configured = true := hc.resolve_left nofun
    rw [exec, execBfQuery, if_neg (by simp [hconf]), if_pos hk]

/-- Settles O45: the three commands' length check, with the record of fault entry. -/
theorem keyTooLongFaultsKeyLenErr : Obligations.KeyTooLongFaultsKeyLenErr := by
  intro s i op hmem hc hk
  simp only [List.mem_cons, List.not_mem_nil, or_false, Prod.mk.injEq] at hmem
  rw [exec_keyTooLong (hmem.imp And.left (Or.imp And.left And.left)) hc hk, raiseFault_encode]
  rcases hmem with ⟨rfl, rfl⟩ | ⟨rfl, rfl⟩ | ⟨rfl, rfl⟩ <;> rfl

end Sys2Proof.Machine
end

section
/-! The bit-array commands: what each does to the array and to RESULT (R75 to R79), their fidelity to one another (R80),
and their faults (R72, R74, R75). -/

namespace Sys2Proof.Machine

/-- Within a byte, `f` replaces the bit under the mask by `g` of it and keeps the others (R73): `ActsUnderMask` with its
`g` named. -/
def ActsOnBitAs (f : Byte → Byte → Byte) (g : Bool → Bool) : Prop :=
  ∀ (v : Byte) (p q : Nat), byteOf q = byteOf p →
    (f v (maskOf p)).getLsbD (q % 8) = if q = p then g (v.getLsbD (q % 8)) else v.getLsbD (q % 8)

theorem or_setsBit : ActsOnBitAs (fun v m => v ||| m) fun _ => true := fun v _ _ h => or_mask_getLsbD v h

theorem and_not_clearsBit : ActsOnBitAs (fun v m => v &&& ~~~m) fun _ => false := fun v _ _ h => and_not_mask_getLsbD v h

theorem xor_togglesBit : ActsOnBitAs (fun v m => v ^^^ m) fun b => !b := fun v _ _ h => xor_mask_getLsbD v h

section
variable {w : Word} {f : Byte → Byte → Byte} {g : Bool → Bool} {s : State} (h : Invariant s) (hf : ActsOnBitAs f g)
  (hc : s.configured = false) (hb : s.arg.toNat < s.size.toNat)
include h hf hc hb

/-- The template of BA_SET, BA_CLEAR and BA_FLIP in range writes ARR alone and keeps the invariant: bit ARG becomes `g`
of itself, and no other bit and no byte but its own changes (R73, R77 to R79). -/
theorem mutateBit_changesOneBit :
    ∃ m : Memory, mutateBit w f s = .next { s with pend := none, arr := m } ∧
      Invariant { s with pend := none, arr := m } ∧
      (∀ q, State.bit { s with pend := none, arr := m } q = if q = s.arg.toNat then g (s.bit q) else s.bit q) ∧
      ∀ b, b ≠ byteOf s.arg.toNat → m.read b = s.arr.read b := by
  have he := mutateBit_ok (w := w) f hc hb h.size_le_storage
  refine ⟨_, he, mutateBit_invariant h ⟨g, hf⟩ he, ?_, fun b hne => ?_⟩
  · exact bit_modify h.arr_wf f g _ fun q hq => by rw [hf _ _ _ hq, State.bit, hq]
  · rw [memory_read_write h.arr_wf, if_neg hne]

end

/-- BA_TEST in range answers the bit as a word and completes (R76). -/
theorem execBaTest_ok {s : State} (h : s.size.toNat ≤ 8 * s.params.arrayBytes) (hb : s.arg.toNat < s.size.toNat) :
    execBaTest s = .next { s with pend := none, result := boolWord (s.bit s.arg.toNat) } := by
  rw [execBaTest, if_neg (by rw [BitVec.le_def]; omega), testBit_ok (byteOf_lt hb h), andThen_ok, finish_ok]

/-- Settles O32: the answered word is the bit as 0 or 1. -/
theorem baTestReadsTheBit : Obligations.BaTestReadsTheBit := fun s h hb => by
  rw [exec, execBaTest_ok h.size_le_storage hb, boolWord_eq]
  rfl

/-- Settles O33: OR with the mask sets the bit. -/
theorem baSetSetsOneBit : Obligations.BaSetSetsOneBit := fun _ h hc hb =>
  have ⟨_, he, _, hbit, hread⟩ := mutateBit_changesOneBit h or_setsBit hc hb
  ⟨_, he, rfl, hbit, hread⟩

/-- Settles O34: AND with the inverted mask clears the bit. -/
theorem baClearClearsOneBit : Obligations.BaClearClearsOneBit := fun _ h hc hb =>
  have ⟨_, he, _, hbit, hread⟩ := mutateBit_changesOneBit h and_not_clearsBit hc hb
  ⟨_, he, rfl, hbit, hread⟩

/-- Settles O35: XOR with the mask toggles the bit. -/
theorem baFlipTogglesOneBit : Obligations.BaFlipTogglesOneBit := fun _ h hc hb =>
  have ⟨_, he, _, hbit, hread⟩ := mutateBit_changesOneBit h xor_togglesBit hc hb
  ⟨_, he, rfl, hbit, hread⟩

section
variable {w : Word} {f : Byte → Byte → Byte} {g : Bool → Bool} {s : State} (h : Invariant s) (hf : ActsOnBitAs f g)
  (hc : s.configured = false) (hb : s.arg.toNat < s.size.toNat)
include h hf hc hb

/-- After one of the three mutating commands at ARG, BA_TEST at ARG answers the new bit (R80 (a), (b)). -/
theorem mutateBit_then_test :
    ∃ t u, mutateBit w f s = .next t ∧ exec .baTest t = .next u ∧ u.result = boolWord (g (s.bit s.arg.toNat)) := by
  obtain ⟨m, he, -, hbit, -⟩ := mutateBit_changesOneBit (w := w) h hf hc hb
  refine ⟨_, _, he, execBaTest_ok h.size_le_storage hb, ?_⟩
  simp only [hbit, if_true]

/-- After one of the three mutating commands at ARG, BA_TEST at another position answers what it answered before
(R80 (d)). -/
theorem mutateBit_then_test_other {q : Word} (hq : q ≠ s.arg) (hlt : q.toNat < s.size.toNat) :
    ∃ t u v, mutateBit w f s = .next t ∧ exec .baTest { t with arg := q } = .next u ∧
      exec .baTest { s with arg := q } = .next v ∧ u.result = v.result := by
  obtain ⟨m, he, -, hbit, -⟩ := mutateBit_changesOneBit (w := w) h hf hc hb
  refine ⟨_, _, _, he, execBaTest_ok h.size_le_storage hlt, execBaTest_ok h.size_le_storage hlt, congrArg boolWord ?_⟩
  exact (hbit q.toNat).trans (if_neg (mt BitVec.eq_of_toNat_eq hq))

end

/-- Canonical arrays with equal bits are equal. -/
theorem arr_eq_of_bit_eq {s t : State} (ht : t.arr.wf) (hs : s.arr.wf) (h : ∀ q, t.bit q = s.bit q) : t.arr = s.arr := by
  refine memory_ext ht hs fun b => BitVec.eq_of_getLsbD_eq fun j hj => ?_
  have hdiv : (8 * b + j) / 8 = b := by omega
  have hmod : (8 * b + j) % 8 = j := by omega
  simpa [State.bit, byteOf, hdiv, hmod] using h (8 * b + j)

/-- BA_FLIP twice at the same position restores ARR (R80 (c)). -/
theorem execBaFlip_twice {s : State} (h : Invariant s) (hc : s.configured = false) (hb : s.arg.toNat < s.size.toNat) :
    ∃ t u, exec .baFlip s = .next t ∧ exec .baFlip t = .next u ∧ u.arr = s.arr := by
  obtain ⟨m, he, ht, hbit, -⟩ := mutateBit_changesOneBit (w := encode .baFlip) h xor_togglesBit hc hb
  obtain ⟨n, he', hu, hbit', -⟩ := mutateBit_changesOneBit (w := encode .baFlip) ht xor_togglesBit hc hb
  refine ⟨_, _, he, he', arr_eq_of_bit_eq hu.arr_wf h.arr_wf fun q => ?_⟩
  rw [hbit', hbit]
  by_cases hq : q = s.arg.toNat <;> simp [hq]

/-- Settles O39: the four properties of R80, each from the effect of the mutating commands on single bits. -/
theorem bitArrayFidelity : Obligations.BitArrayFidelity := by
  intro s h hc hb
  refine ⟨mutateBit_then_test h or_setsBit hc hb, mutateBit_then_test h and_not_clearsBit hc hb,
    execBaFlip_twice h hc hb, fun i q hi hq hlt => ?_⟩
  rcases hi with rfl | rfl | rfl
  · exact mutateBit_then_test_other h or_setsBit hc hb hq hlt
  · exact mutateBit_then_test_other h and_not_clearsBit hc hb hq hlt
  · exact mutateBit_then_test_other h xor_togglesBit hc hb hq hlt

/-- BA_INIT of a size up to CAP_BITS, when no filter owns the array (R75). -/
theorem execBaInit_ok {s : State} (hc : s.configured = false) (hn : s.arg.toNat ≤ s.params.capBits) :
    execBaInit s = .next { s with pend := none, arr := Memory.zeroed, size := s.arg } := by
  rw [execBaInit, if_neg (by simp [hc]), if_neg (Nat.not_lt.mpr hn), finish_ok]

/-- BA_INIT of a larger size (R75). -/
theorem execBaInit_tooLarge {s : State} (hc : s.configured = false) (hn : s.params.capBits < s.arg.toNat) :
    execBaInit s = raiseFault (encode .baInit) .badSize s.arg s := by
  rw [execBaInit, if_neg (by simp [hc]), if_pos hn]

/-- Settles O31: ARR becomes the zeroed memory. -/
theorem baInitMakesAnEmptyArray : Obligations.BaInitMakesAnEmptyArray := fun _ hc hn =>
  ⟨_, execBaInit_ok hc hn, rfl, memory_read_zeroed⟩

/-- Settles O38: the check of R75 that follows OWNED. -/
theorem baInitTooLargeFaultsBadSize : Obligations.BaInitTooLargeFaultsBadSize := fun s hc hn =>
  (execBaInit_tooLarge hc hn).trans (raiseFault_encode .baInit .badSize s.arg s)

/-- The commands that change the array check its ownership first (R74). -/
theorem exec_owned {i : Instr} {s : State} (hi : i = .baInit ∨ i = .baSet ∨ i = .baClear ∨ i = .baFlip)
    (hc : s.configured = true) : exec i s = raiseFault (encode i) .owned s.arg s := by
  rcases hi with rfl | rfl | rfl | rfl
  · rw [exec, execBaInit, if_pos hc]
  · rw [exec, execBaSet, mutateBit, if_pos hc]
  · rw [exec, execBaClear, mutateBit, if_pos hc]
  · rw [exec, execBaFlip, mutateBit, if_pos hc]

/-- Settles O36: the four commands' ownership check, with the record of fault entry. -/
theorem ownedArrayCannotBeMutated : Obligations.OwnedArrayCannotBeMutated := by
  intro s i op hmem hc
  simp only [List.mem_cons, List.not_mem_nil, or_false, Prod.mk.injEq] at hmem
  rw [exec_owned (hmem.imp And.left (Or.imp And.left (Or.imp And.left And.left))) hc, raiseFault_encode]
  rcases hmem with ⟨rfl, rfl⟩ | ⟨rfl, rfl⟩ | ⟨rfl, rfl⟩ | ⟨rfl, rfl⟩ <;> rfl

/-- The template of the mutating commands faults BOUNDS at the end of the array, when no filter owns it (R72). -/
theorem mutateBit_outOfRange (w : Word) (f : Byte → Byte → Byte) {s : State} (hc : s.configured = false)
    (hb : s.size.toNat ≤ s.arg.toNat) : mutateBit w f s = raiseFault w .bounds s.arg s := by
  rw [mutateBit, if_neg (by simp [hc]), if_pos (BitVec.le_def.mpr hb)]

/-- The commands on one bit check its position: BA_TEST at once, the others when no filter owns the array (R72, R74). -/
theorem exec_outOfRange {i : Instr} {s : State} (hi : i = .baTest ∨ i = .baSet ∨ i = .baClear ∨ i = .baFlip)
    (hc : i = .baTest ∨ s.configured = false) (hb : s.size.toNat ≤ s.arg.toNat) :
    exec i s = raiseFault (encode i) .bounds s.arg s := by
  rcases hi with rfl | rfl | rfl | rfl
  · rw [exec, execBaTest, if_pos (BitVec.le_def.mpr hb)]
  · exact mutateBit_outOfRange _ _ (hc.resolve_left nofun) hb
  · exact mutateBit_outOfRange _ _ (hc.resolve_left nofun) hb
  · exact mutateBit_outOfRange _ _ (hc.resolve_left nofun) hb

/-- Settles O37: the four commands' position check, with the record of fault entry. -/
theorem positionOutOfRangeFaultsBounds : Obligations.PositionOutOfRangeFaultsBounds := by
  intro s i op hmem hc hb
  simp only [List.mem_cons, List.not_mem_nil, or_false, Prod.mk.injEq] at hmem
  rw [exec_outOfRange (hmem.imp And.left (Or.imp And.left (Or.imp And.left And.left))) hc hb, raiseFault_encode]
  rcases hmem with ⟨rfl, rfl⟩ | ⟨rfl, rfl⟩ | ⟨rfl, rfl⟩ | ⟨rfl, rfl⟩ <;> rfl

end Sys2Proof.Machine
end

section
/-! What a step does to a configured filter (R83, R94): short of a reset it keeps CONFIGURED, SIZE and FILTER_K, and
BF_INSERT alone writes ARR, whose bits only rise. -/

namespace Sys2Proof.Machine

/-- The insert loop only raises bits. -/
theorem insertRounds_keepsBits {key : List Byte} {n i : Nat} {s t : State} (hs : s.arr.wf)
    (h : insertRounds key n i s = .ok t) {q : Nat} (hq : s.bit q = true) : t.bit q = true := by
  obtain ⟨-, -, -, hbit, -, -⟩ := insertRounds_cases hs h
  exact (hbit q).mpr (.inl hq)

/-- BF_CONFIG checks for a filter first (R86). -/
theorem execBfConfig_configured {s : State} (hc : s.configured = true) :
    execBfConfig s = raiseFault (encode .bfConfig) .alreadyConfigured 0 s := by
  rw [execBfConfig, if_pos hc]

/-- Everything a queued command can do to a configured filter: fault, write RESULT alone, or, for BF_INSERT, run its
rounds. BA_INIT, BA_SET, BA_CLEAR and BA_FLIP fault OWNED (R74), BF_CONFIG faults ALREADY_CONFIGURED (R86). -/
theorem exec_cases_of_configured {i : Instr} {s t : State} (hi : i ≠ .softReset) (hc : s.configured = true)
    (h : exec i s = .next t) :
    (∃ c a, t = s.enterFault (encode i) c a) ∨ t = { s with pend := none, result := t.result } ∨
      i = .bfInsert ∧ ∃ u, insertRounds (keyBytes s) s.filterK.toNat 0 s = .ok u ∧ t = { u with pend := none } := by
  have owned (hm : i = .baInit ∨ i = .baSet ∨ i = .baClear ∨ i = .baFlip) : ∃ c a, t = s.enterFault (encode i) c a :=
    ⟨_, _, raiseFault_next ((exec_owned hm hc).symm.trans h)⟩
  cases i with
  | hash =>
    rcases execHash_cases h with ⟨-, rfl⟩ | ⟨-, rfl⟩
    · exact .inl ⟨_, _, rfl⟩
    · exact .inr (.inl rfl)
  | baInit => exact .inl (owned (by decide))
  | baTest =>
    rcases execBaTest_cases h with ⟨-, rfl⟩ | ⟨-, rfl⟩
    · exact .inl ⟨_, _, rfl⟩
    · exact .inr (.inl rfl)
  | baSet => exact .inl (owned (by decide))
  | baClear => exact .inl (owned (by decide))
  | baFlip => exact .inl (owned (by decide))
  | bfConfig => exact .inl ⟨_, _, raiseFault_next ((execBfConfig_configured hc).symm.trans h)⟩
  | bfInsert =>
    rcases execBfInsert_cases h with ⟨-, rfl⟩ | ⟨-, -, rfl⟩ | ⟨-, -, hu⟩
    · exact .inl ⟨_, _, rfl⟩
    · exact .inl ⟨_, _, rfl⟩
    · exact .inr (.inr ⟨rfl, hu⟩)
  | bfQuery =>
    rcases execBfQuery_cases h with ⟨-, rfl⟩ | ⟨-, -, rfl⟩ | ⟨-, -, b, -, rfl⟩
    · exact .inl ⟨_, _, rfl⟩
    · exact .inl ⟨_, _, rfl⟩
    · exact .inr (.inl rfl)
  | softReset => exact absurd rfl hi

/-- `t` has the filter of `s`: CONFIGURED, `m`, `k` and the array (R83). -/
structure SameFilter (s t : State) : Prop where
  configured : t.configured = s.configured
  size : t.size = s.size
  filterK : t.filterK = s.filterK
  arr : t.arr = s.arr

/-- No event from the outside but a reset touches the filter (R36, R20). -/
theorem outsideEvent_sameFilter {e : Event} {s t : State} (hr : isResetEvent e = false)
    (h : outsideEvent e s = .next t) : SameFilter s t := by
  rcases outsideEvent_cases h with ⟨hr', -⟩ | ⟨-, ⟨l, n, rfl⟩ | ⟨off, d, tg, l, -, -, -, rfl⟩⟩
  · rw [hr] at hr'; cases hr'
  · exact ⟨rfl, rfl, rfl, rfl⟩
  · rcases writeTarget_cases tg d s with ⟨-, e⟩ | e | ⟨-, -, -, e⟩ | ⟨-, a, k, m, c, e⟩ | ⟨-, j, -, e⟩ <;> rw [e] <;>
      exact ⟨rfl, rfl, rfl, rfl⟩

/-- The completion of a command word on a configured filter keeps it, or is that of BF_INSERT. -/
theorem completePending_cases_of_configured {w : Word} {s t : State} (hc : s.configured = true)
    (h : completePending w s = .next t) :
    SameFilter s t ∨ w = encode .bfInsert ∧
      ∃ u, insertRounds (keyBytes s) s.filterK.toNat 0 s = .ok u ∧ t = { u with pend := none } := by
  rcases completePending_cases h with ⟨i, hi, hd, hex⟩ | rfl
  · rcases exec_cases_of_configured hi hc hex with ⟨c, a, rfl⟩ | e | ⟨rfl, hu⟩
    · exact .inl ⟨rfl, rfl, rfl, rfl⟩
    · rw [e]
      exact .inl ⟨rfl, rfl, rfl, rfl⟩
    · exact .inr ⟨(decodePending_ok_iff.mp hd).1, hu⟩
  · exact .inl ⟨rfl, rfl, rfl, rfl⟩

/-- A step on a configured filter, short of a reset, keeps it or is the completion of BF_INSERT. -/
theorem step_cases_of_configured {s t : State} (hc : s.configured = true) (hr : takesReset s = false)
    (h : step s = .next t) :
    SameFilter s t ∨ completesInsert s = true ∧
      ∃ u, insertRounds (keyBytes s) s.filterK.toNat 0 s = .ok u ∧ t = { u with pend := none } := by
  rcases step_cases h with ⟨-, -, rfl⟩ | ⟨ho, x, rest, hin, he⟩ | ⟨ho, w, hw, hcomp⟩
  · exact .inl ⟨rfl, rfl, rfl, rfl⟩
  · rw [takesReset_of_input hin ho] at hr
    obtain ⟨h1, h2, h3, h4⟩ := outsideEvent_sameFilter hr he
    exact .inl ⟨h1, h2, h3, h4⟩
  · refine (completePending_cases_of_configured hc hcomp).imp_right fun ⟨hi, hu⟩ => ⟨?_, hu⟩
    simp [completesInsert, hw, hi, ho]

/-- Settles O51: neither of the two cases of a step writes CONFIGURED, SIZE or FILTER_K. -/
theorem filterParametersAreFixed : Obligations.FilterParametersAreFixed := by
  intro s t hc hr h
  rcases step_cases_of_configured hc hr h with ⟨hconf, hsize, hk, -⟩ | ⟨-, u, hu, rfl⟩
  · exact ⟨hconf.trans hc, hsize, hk⟩
  · rw [insertRounds_onlyArr hu]
    exact ⟨hc, rfl, rfl⟩

/-- Settles O50: a step keeps ARR or runs the rounds of BF_INSERT, which only raise bits. -/
theorem filterBitsOnlyRise : Obligations.FilterBitsOnlyRise := by
  intro s t hinv hc hr h
  refine ⟨(filterParametersAreFixed s t hc hr h).1, fun q hq => ?_⟩
  rcases step_cases_of_configured hc hr h with ⟨-, -, -, harr⟩ | ⟨-, u, hu, rfl⟩
  · rwa [State.bit, harr]
  · exact insertRounds_keepsBits hinv.arr_wf hu hq

end Sys2Proof.Machine
end

section
/-! The filter commands themselves: BF_CONFIG (R86), the bits BF_INSERT sets (R87), the bits BF_QUERY tests (R88), and the
range of the indices (R84). -/

namespace Sys2Proof.Machine

/-- BF_CONFIG with no filter configured and legal parameters (R86). -/
theorem execBfConfig_ok {s : State} (hc : s.configured = false) (hm : s.cfgM ≠ 0)
    (hcap : s.cfgM.toNat ≤ s.params.capBits) (hk : s.cfgK ≠ 0) :
    execBfConfig s = .next
      { s with pend := none, arr := Memory.zeroed, size := s.cfgM, filterK := s.cfgK, configured := true } := by
  rw [execBfConfig, if_neg (by simp [hc]), if_neg (not_or.mpr ⟨hm, Nat.not_lt.mpr hcap⟩), if_neg hk, finish_ok]

/-- BF_CONFIG of an `m` of 0 or above CAP_BITS, with no filter configured (R86). -/
theorem execBfConfig_badM {s : State} (hc : s.configured = false) (hm : s.cfgM = 0 ∨ s.params.capBits < s.cfgM.toNat) :
    execBfConfig s = raiseFault (encode .bfConfig) .badConfig s.cfgM s := by
  rw [execBfConfig, if_neg (by simp [hc]), if_pos hm]

/-- BF_CONFIG of `k = 0` with a legal `m`, with no filter configured (R86). -/
theorem execBfConfig_badK {s : State} (hc : s.configured = false) (hm : s.cfgM ≠ 0)
    (hcap : s.cfgM.toNat ≤ s.params.capBits) (hk : s.cfgK = 0) :
    execBfConfig s = raiseFault (encode .bfConfig) .badConfig 0 s := by
  rw [execBfConfig, if_neg (by simp [hc]), if_neg (not_or.mpr ⟨hm, Nat.not_lt.mpr hcap⟩), if_pos hk, hk]

theorem ne_zero_of_one_le_toNat {w : Word} (h : 1 ≤ w.toNat) : w ≠ 0 := by rintro rfl; exact absurd h (by decide)

/-- Settles O40: ARR becomes the zeroed memory. -/
theorem bfConfigConstructsTheFilter : Obligations.BfConfigConstructsTheFilter := fun _ hc hm hcap hk =>
  ⟨_, execBfConfig_ok hc (ne_zero_of_one_le_toNat hm) hcap (ne_zero_of_one_le_toNat hk), rfl, memory_read_zeroed⟩

/-- Settles O41: the three checks of R86, each with the record of fault entry. -/
theorem bfConfigFaultsInOrder : Obligations.BfConfigFaultsInOrder := fun s =>
  ⟨fun hc => (execBfConfig_configured hc).trans (raiseFault_encode .bfConfig .alreadyConfigured 0 s),
    fun hc hm => (execBfConfig_badM hc hm).trans (raiseFault_encode .bfConfig .badConfig s.cfgM s),
    fun hc hm hcap hk =>
      (execBfConfig_badK hc (ne_zero_of_one_le_toNat hm) hcap hk).trans (raiseFault_encode .bfConfig .badConfig 0 s)⟩

/-- BF_INSERT and BF_QUERY check for a filter first (R87, R88). -/
theorem exec_notConfigured {i : Instr} {s : State} (hi : i = .bfInsert ∨ i = .bfQuery) (hc : s.configured = false) :
    exec i s = raiseFault (encode i) .notConfigured 0 s := by
  rcases hi with rfl | rfl
  · rw [exec, execBfInsert, if_pos hc]
  · rw [exec, execBfQuery, if_pos hc]

/-- Settles O44: the two commands' first check, with the record of fault entry. -/
theorem filterCommandsNeedAFilter : Obligations.FilterCommandsNeedAFilter := by
  intro s i op hmem hc
  simp only [List.mem_cons, List.not_mem_nil, or_false, Prod.mk.injEq] at hmem
  rw [exec_notConfigured (hmem.imp And.left And.left) hc, raiseFault_encode]
  rcases hmem with ⟨rfl, rfl⟩ | ⟨rfl, rfl⟩ <;> rfl

/-- The bits of all rounds of `key` are set in the filter of `s` (R84, R85). -/
def State.hasKey (key : List Byte) (s : State) : Prop :=
  ∀ i, i < s.filterK.toNat → s.bit (filterIndex key s.size i) = true

/-- What the rounds `0 .. n-1` of the insert loop do: set their bits, and change no byte without one. -/
theorem insertRounds_fromZero {key : List Byte} {n : Nat} {s t : State} (hs : s.arr.wf)
    (h : insertRounds key n 0 s = .ok t) :
    (∀ q, t.bit q = true ↔ s.bit q = true ∨ ∃ i, i < n ∧ q = filterIndex key s.size i) ∧
      ∀ b, (∀ i, i < n → b ≠ byteOf (filterIndex key s.size i)) → t.arr.read b = s.arr.read b := by
  obtain ⟨-, -, -, hbit, hread, -⟩ := insertRounds_cases hs h
  simp only [Nat.zero_le, Nat.zero_add, forall_const, true_and] at hbit hread
  exact ⟨hbit, hread⟩

/-- After its rounds the filter has the inserted key. -/
theorem insertRounds_hasKey {key : List Byte} {s t : State} (hs : s.arr.wf)
    (h : insertRounds key s.filterK.toNat 0 s = .ok t) : t.hasKey key := by
  have hbit := (insertRounds_fromZero hs h).1
  have honly := insertRounds_onlyArr h
  have hsize : t.size = s.size := by rw [honly]
  have hk : t.filterK = s.filterK := by rw [honly]
  intro i hi
  rw [hsize]
  exact (hbit _).mpr (.inr ⟨i, hk ▸ hi, rfl⟩)

/-- Inserting a key the filter has leaves ARR as it is. -/
theorem insertRounds_of_hasKey {key : List Byte} {s t : State} (hs : s.arr.wf) (hkey : s.hasKey key)
    (h : insertRounds key s.filterK.toNat 0 s = .ok t) : t.arr = s.arr := by
  obtain ⟨-, hwf, -⟩ := insertRounds_cases hs h
  refine arr_eq_of_bit_eq hwf hs fun q => Bool.eq_iff_iff.mpr ?_
  rw [(insertRounds_fromZero hs h).1]
  constructor
  · rintro (hold | ⟨i, hi, rfl⟩)
    · exact hold
    · exact hkey i hi
  · exact .inl

/-- The query loop answers whether the filter has the key (R88). -/
theorem queryRounds_hasKey {key : List Byte} {s : State} {b : Bool}
    (h : queryRounds key s s.filterK.toNat 0 = .ok b) : b = true ↔ s.hasKey key := by
  simpa [State.hasKey] using queryRounds_cases h

section
variable {s : State} (hinv : Invariant s) (hc : s.configured = true) (hl : s.keyLen.toNat ≤ s.params.keyMax)
include hinv hc hl

/-- BF_INSERT on a configured filter, with a key that fits KEY, runs its rounds and completes (R87). -/
theorem execBfInsert_ok :
    ∃ u, insertRounds (keyBytes s) s.filterK.toNat 0 s = .ok u ∧ execBfInsert s = .next { u with pend := none } := by
  obtain ⟨u, hu⟩ := insertRounds_ok (keyBytes s) s.filterK.toNat 0 (hinv.configured_sized hc).1 hinv.size_le_storage
  exact ⟨u, hu, by rw [execBfInsert, if_neg (by simp [hc]), if_neg (Nat.not_lt.mpr hl), hu, finish_ok]⟩

/-- BF_QUERY on a configured filter, with a key that fits KEY, writes its answer to RESULT and completes (R88). -/
theorem execBfQuery_ok :
    ∃ b, queryRounds (keyBytes s) s s.filterK.toNat 0 = .ok b ∧
      execBfQuery s = .next { s with pend := none, result := boolWord b } := by
  obtain ⟨b, hb⟩ := queryRounds_ok (keyBytes s) s.filterK.toNat 0 (hinv.configured_sized hc).1 hinv.size_le_storage
  exact ⟨b, hb, by
    rw [execBfQuery, if_neg (by simp [hc]), if_neg (Nat.not_lt.mpr hl), hb, andThen_ok, finish_ok]⟩

end

/-- Settles O42: what the rounds do, with the index written out. -/
theorem bfInsertSetsTheIndexedBits : Obligations.BfInsertSetsTheIndexedBits := by
  intro s hinv hc hl
  obtain ⟨u, hu, he⟩ := execBfInsert_ok hinv hc hl
  obtain ⟨hbit, hread⟩ := insertRounds_fromZero hinv.arr_wf hu
  refine ⟨_, he, ?_, hbit, hread⟩
  rw [insertRounds_onlyArr hu]

/-- The answer as a word is 0 or 1, and 1 for true. -/
theorem boolWord_cases (b : Bool) : (boolWord b = 0 ∨ boolWord b = 1) ∧ (boolWord b = 1 ↔ b = true) := by
  cases b <;> decide

/-- Settles O43: the answer says whether the filter has the key. -/
theorem bfQueryTestsTheIndexedBits : Obligations.BfQueryTestsTheIndexedBits := by
  intro s hinv hc hl
  obtain ⟨b, hb, he⟩ := execBfQuery_ok hinv hc hl
  obtain ⟨hword, hone⟩ := boolWord_cases b
  exact ⟨_, he, rfl, hword, hone.trans (queryRounds_hasKey hb)⟩

/-- A filter command keeps ERRCODE or writes one that is not BOUNDS (R104). -/
theorem exec_filterCommand_errCode {i : Instr} {s t : State} (hi : i = .bfConfig ∨ i = .bfInsert ∨ i = .bfQuery)
    (h : exec i s = .next t) : t.errCode = s.errCode ∨ t.errCode ≠ .bounds := by
  rcases hi with rfl | rfl | rfl
  · rcases execBfConfig_cases h with ⟨-, rfl⟩ | ⟨-, -, rfl⟩ | ⟨-, -, rfl⟩ | ⟨-, -, -, -, rfl⟩
    · exact .inr nofun
    · exact .inr nofun
    · exact .inr nofun
    · exact .inl rfl
  · rcases execBfInsert_cases h with ⟨-, rfl⟩ | ⟨-, -, rfl⟩ | ⟨-, -, u, hu, rfl⟩
    · exact .inr nofun
    · exact .inr nofun
    · rw [insertRounds_onlyArr hu]
      exact .inl rfl
  · rcases execBfQuery_cases h with ⟨-, rfl⟩ | ⟨-, -, rfl⟩ | ⟨-, -, b, -, rfl⟩
    · exact .inr nofun
    · exact .inr nofun
    · exact .inl rfl

/-- Settles O46: SIZE is not 0, so the remainder is below it, and the commands that answer leave ERRCODE at NONE or write
a code of their own. -/
theorem filterIndicesAreInRange : Obligations.FilterIndicesAreInRange := by
  intro s hinv
  refine ⟨fun hc key i => ?_, fun i hi hf => ?_⟩
  · have hm := (hinv.configured_sized hc).1
    exact ⟨roundIndex_ok key i hm, Nat.le_sub_one_of_lt (filterIndex_lt key i hm)⟩
  · obtain ⟨t, ht⟩ := exec_answers i hinv
    refine ⟨t, ht, ?_⟩
    rcases exec_filterCommand_errCode hi ht with e | hne
    · rw [e, hinv.code_iff_fault.mpr hf]
      decide
    · exact hne

/-- Settles O47: a second insert that is carried out finds a filter that has the key; a fault leaves ARR as it is. -/
theorem insertIsIdempotent : Obligations.InsertIsIdempotent := by
  intro s t u hinv ht hu
  have htinv : Invariant t := exec_invariant hinv ht
  rcases execBfInsert_cases hu with ⟨-, rfl⟩ | ⟨-, -, rfl⟩ | ⟨hc, hl, v, hv, rfl⟩
  · rfl
  · rfl
  · rcases execBfInsert_cases ht with ⟨hc', rfl⟩ | ⟨-, hl', rfl⟩ | ⟨-, -, w, hw, e⟩
    · simp [hc'] at hc
    · exact absurd hl (Nat.not_le.mpr hl')
    · have hkey : keyBytes t = keyBytes s := by rw [e, insertRounds_onlyArr hw]; rfl
      have hw' : w.hasKey (keyBytes s) := insertRounds_hasKey hinv.arr_wf hw
      have ht' : t.hasKey (keyBytes t) := by rw [hkey, e]; exact hw'
      have harr : v.arr = t.arr := insertRounds_of_hasKey htinv.arr_wf ht' hv
      exact harr

end Sys2Proof.Machine
end

section
/-! Runs on a configured filter: it stays empty until an insert (R92), and what was inserted stays in it (R93). -/

namespace Sys2Proof.Machine

/-- What holds at the start of a run, and is kept by every step the run may take, holds at its end. -/
theorem RunsAvoiding.invariant {bad : State → Bool} {P : State → Prop} {s t : State} (h : RunsAvoiding bad s t)
    (hs : P s) (hstep : ∀ a b, P a → bad a = false → step a = .next b → P b) : P t := by
  induction h with
  | refl => exact hs
  | more _ hbad hab ih => exact hstep _ _ ih hbad hab

/-- A configured filter with every bit clear. -/
structure EmptyFilter (s : State) : Prop where
  configured : s.configured = true
  rounds : s.filterK ≠ 0
  arr : s.arr = Memory.zeroed

/-- A BF_CONFIG that configures makes an empty filter (R86). -/
theorem execBfConfig_emptyFilter {s t : State} (hc : s.configured = false) (h : execBfConfig s = .next t)
    (ht : t.configured = true) : EmptyFilter t := by
  rcases execBfConfig_cases h with ⟨hc', -⟩ | ⟨-, -, rfl⟩ | ⟨-, -, rfl⟩ | ⟨-, -, -, hk, rfl⟩
  · rw [hc] at hc'; cases hc'
  · rw [enterFault_configured, hc] at ht; cases ht
  · rw [enterFault_configured, hc] at ht; cases ht
  · exact ⟨rfl, hk, rfl⟩

/-- A step that is neither a reset nor the completion of an insert keeps an empty filter empty. -/
theorem step_emptyFilter {s t : State} (he : EmptyFilter s) (hr : takesReset s = false)
    (hi : completesInsert s = false) (h : step s = .next t) : EmptyFilter t := by
  rcases step_cases_of_configured he.configured hr h with ⟨hc, -, hk, harr⟩ | ⟨hi', -⟩
  · exact ⟨hc.trans he.configured, hk ▸ he.rounds, harr.trans he.arr⟩
  · rw [hi] at hi'; cases hi'

/-- An empty filter has no key: the bit of round 0 is clear (R92). -/
theorem EmptyFilter.not_hasKey {s : State} (h : EmptyFilter s) (key : List Byte) : ¬ s.hasKey key := by
  intro hkey
  have hbit := hkey 0 (Nat.pos_of_ne_zero fun e => h.rounds (BitVec.eq_of_toNat_eq e))
  simp [State.bit, h.arr] at hbit

/-- A query that completes without fault answers whether the filter has its key (R88). -/
theorem execBfQuery_answer {s t : State} (h : execBfQuery s = .next t) (hf : t.fault = false) :
    ∃ b, t.result = boolWord b ∧ (b = true ↔ s.hasKey (keyBytes s)) := by
  rcases execBfQuery_cases h with ⟨-, rfl⟩ | ⟨-, -, rfl⟩ | ⟨-, -, b, hb, rfl⟩
  · cases hf
  · cases hf
  · exact ⟨b, rfl, queryRounds_hasKey hb⟩

/-- Settles O48: every state of the run has an empty filter. -/
theorem emptyFilterAnswersNo : Obligations.EmptyFilterAnswersNo := by
  intro s t u v _ hc hconf ht hrun hquery hf
  have hempty : EmptyFilter u :=
    hrun.invariant (execBfConfig_emptyFilter hc hconf ht) fun a b ha hbad hab =>
      have ⟨hr, hi⟩ := Bool.or_eq_false_iff.mp hbad
      step_emptyFilter ha hr hi hab
  obtain ⟨b, hres, hb⟩ := execBfQuery_answer hquery hf
  have hno : b = false := Bool.eq_false_iff.mpr fun e => hempty.not_hasKey _ (hb.mp e)
  rw [hres, hno]
  rfl

/-- `t` is a state of the invariant with the filter of `s`, in which bits may have risen (R93, R94). -/
structure FilterGrown (s t : State) : Prop where
  invariant : Invariant t
  configured : t.configured = true
  size : t.size = s.size
  filterK : t.filterK = s.filterK
  bits : ∀ q, s.bit q = true → t.bit q = true

/-- A grown filter has every key it had. -/
theorem FilterGrown.hasKey {s t : State} (h : FilterGrown s t) {key : List Byte} (hkey : s.hasKey key) :
    t.hasKey key := by
  intro i hi
  rw [h.size]
  exact h.bits _ (hkey i (h.filterK ▸ hi))

/-- A step that is no reset lets a filter grow (R83, R94). -/
theorem step_filterGrown {s a b : State} (h : FilterGrown s a) (hr : takesReset a = false) (hab : step a = .next b) :
    FilterGrown s b := by
  obtain ⟨hc, hrise⟩ := filterBitsOnlyRise a b h.invariant h.configured hr hab
  obtain ⟨-, hsize, hk⟩ := filterParametersAreFixed a b h.configured hr hab
  exact ⟨step_invariant h.invariant hab, hc, hsize.trans h.size, hk.trans h.filterK,
    fun q hq => hrise q (h.bits q hq)⟩

/-- After an insert without fault the filter is configured and has the key (R87). -/
theorem execBfInsert_hasKey {s t : State} (hs : s.arr.wf) (h : execBfInsert s = .next t) (hf : t.fault = false) :
    t.configured = true ∧ t.hasKey (keyBytes s) := by
  rcases execBfInsert_cases h with ⟨-, rfl⟩ | ⟨-, -, rfl⟩ | ⟨hc, -, u, hu, rfl⟩
  · cases hf
  · cases hf
  · have hconf : u.configured = true := by rw [insertRounds_onlyArr hu]; exact hc
    have hkey : u.hasKey (keyBytes s) := insertRounds_hasKey hs hu
    exact ⟨hconf, hkey⟩

/-- Settles O49: along the run the filter of the insert grows, so at the query it still has the key. -/
theorem noFalseNegatives : Obligations.NoFalseNegatives := by
  intro s t u v hinv hins hf hrun hlen hkey hquery hfv
  obtain ⟨hc, hhas⟩ := execBfInsert_hasKey hinv.arr_wf hins hf
  have hgrown : FilterGrown t u :=
    hrun.invariant ⟨exec_invariant hinv hins, hc, rfl, rfl, fun _ => id⟩ fun _ _ => step_filterGrown
  obtain ⟨b, hres, hb⟩ := execBfQuery_answer hquery hfv
  have hyes : b = true := hb.mpr (keyBytes_congr hlen hkey ▸ hgrown.hasKey hhas)
  rw [hres, hyes]
  rfl

end Sys2Proof.Machine
end

section
/-! The sequencer of R89 against the loops of BF_INSERT and BF_QUERY: three transitions are one round. -/

namespace Sys2Proof.Machine

/-- Where the sequencer stands before round `i` of `k`. -/
def seqRoundPhase (k i : Nat) : SeqPhase := if i < k then .hash i else .done

/-- HASH, INDEX and BIT of an insert are one round of the insert loop (R87). -/
theorem sequencerRun_insertRound (key : List Byte) (m : Word) {k i : Nat} (hi : i < k) (arr : Memory) (answer : Bool) :
    sequencerRun .insert key m k 3 { phase := seqRoundPhase k i, arr := arr, answer := answer } =
      { phase := seqRoundPhase k (i + 1)
        arr := arr.write (byteOf (filterIndex key m i))
          (arr.read (byteOf (filterIndex key m i)) ||| maskOf (filterIndex key m i))
        answer := answer } := by
  rw [seqRoundPhase, if_pos hi]
  rfl

/-- HASH, INDEX and BIT of a query are one round of the query loop, which ends at a clear bit (R88). -/
theorem sequencerRun_queryRound (key : List Byte) {k i : Nat} (hi : i < k) (s : State) :
    sequencerRun .query key s.size k 3 { phase := seqRoundPhase k i, arr := s.arr, answer := true } =
      if s.bit (filterIndex key s.size i) then { phase := seqRoundPhase k (i + 1), arr := s.arr, answer := true }
      else { phase := .done, arr := s.arr, answer := false } := by
  rw [seqRoundPhase, if_pos hi]
  rfl

/-- From before round `i` the insert sequencer ends in DONE with the array of the loop over the rounds left. -/
theorem sequencerRun_insertRounds {key : List Byte} {k n i : Nat} {s t : State} (hk : i + n = k)
    (h : insertRounds key n i s = .ok t) (answer : Bool) :
    sequencerRun .insert key s.size k (3 * n) { phase := seqRoundPhase k i, arr := s.arr, answer := answer } =
      { phase := .done, arr := t.arr, answer := answer } := by
  induction n generalizing i s with
  | zero =>
    cases h
    rw [seqRoundPhase, if_neg (by omega)]
    rfl
  | succ n ih =>
    rw [insertRounds] at h
    obtain ⟨x, hx, h⟩ := andThen_cases h
    obtain ⟨-, rfl⟩ := roundIndex_cases hx
    obtain ⟨u, hu, h⟩ := andThen_cases h
    obtain ⟨-, rfl⟩ := modifyBit_cases hu
    rw [Nat.mul_succ, Nat.add_comm, sequencerRun_add, sequencerRun_insertRound key s.size (by omega)]
    exact ih (by omega) h

/-- From before round `i` the query sequencer ends in DONE with the answer of the loop over the rounds left. -/
theorem sequencerRun_queryRounds {key : List Byte} {k n i : Nat} {s : State} {b : Bool} (hk : i + n = k)
    (h : queryRounds key s n i = .ok b) :
    ∃ j, j ≤ 3 * n ∧
      sequencerRun .query key s.size k j { phase := seqRoundPhase k i, arr := s.arr, answer := true } =
        { phase := .done, arr := s.arr, answer := b } := by
  induction n generalizing i with
  | zero =>
    cases h
    rw [seqRoundPhase, if_neg (by omega)]
    exact ⟨0, le_rfl, rfl⟩
  | succ n ih =>
    rw [queryRounds] at h
    obtain ⟨x, hx, h⟩ := andThen_cases h
    obtain ⟨-, rfl⟩ := roundIndex_cases hx
    obtain ⟨c, hc, h⟩ := andThen_cases h
    have hround := sequencerRun_queryRound key (k := k) (i := i) (by omega) s
    rw [← (testBit_cases hc).2] at hround
    cases c with
    | false =>
      cases h
      exact ⟨3, by omega, hround⟩
    | true =>
      obtain ⟨j, hj, hrun⟩ := ih (by omega) h
      exact ⟨3 + j, by omega, by rw [sequencerRun_add, hround]; exact hrun⟩

/-- The first transition leads from IDLE to round 0 of a filter with rounds. -/
theorem sequencerStep_start (c : SeqCommand) (key : List Byte) {k : Nat} (hk : 0 < k) (s : State) :
    sequencerStep c key s.size k (sequencerStart s) = { phase := seqRoundPhase k 0, arr := s.arr, answer := true } := by
  rw [seqRoundPhase, if_pos hk]
  rfl

/-- Settles O52: one transition from IDLE, then the rounds. -/
theorem sequencerHasTheCommandsEffects : Obligations.SequencerHasTheCommandsEffects := by
  intro s hinv hc hl
  have hk : 0 < s.filterK.toNat :=
    Nat.pos_of_ne_zero fun e => (hinv.configured_sized hc).2 (BitVec.eq_of_toNat_eq e)
  obtain ⟨u, hu, hins⟩ := execBfInsert_ok hinv hc hl
  obtain ⟨b, hb, hquery⟩ := execBfQuery_ok hinv hc hl
  obtain ⟨j, hj, hrun⟩ := sequencerRun_queryRounds (Nat.zero_add _) hb
  refine ⟨⟨_, hins, ?_⟩, _, b, j + 1, hquery, by omega, ?_, rfl⟩
  · rw [sequencerRun, sequencerStep_start _ _ hk]
    exact sequencerRun_insertRounds (Nat.zero_add _) hu true
  · rw [sequencerRun, sequencerStep_start _ _ hk]
    exact hrun

end Sys2Proof.Machine
end

section
/-! The host's sizing (R90, R91): `m >= 1` and `k >= 1` in the valid domain, and nothing outside it. -/

namespace Sys2Proof.Machine

/-- Outside the valid domain the host does not configure, whatever its arithmetic (R91). -/
theorem hostSizing_invalid {K : Type} {A : HostArith K} {n : Nat} {p : K} (h : sizingValid A n p = false) :
    hostSizing A n p = none := by
  simp [hostSizing, h]

/-- A `p` that is not above 0 is outside the valid domain. -/
theorem sizingValid_of_not_positive {K : Type} {A : HostArith K} {n : Nat} {p : K} (h : A.lt (A.ofInt 0) p = false) :
    sizingValid A n p = false := by
  simp [sizingValid, h]

/-- A `p` that is not below 1 is outside the valid domain. -/
theorem sizingValid_of_not_below_one {K : Type} {A : HostArith K} {n : Nat} {p : K} (h : A.lt p (A.ofInt 1) = false) :
    sizingValid A n p = false := by
  simp [sizingValid, h]

/-- The valid domain in exact arithmetic (R91). -/
theorem sizingValid_exact_iff {n : Nat} {p : ℝ} :
    sizingValid (exactArith Real.log) n p = true ↔ 1 ≤ n ∧ 0 < p ∧ p < 1 := by
  simp [sizingValid, exactArith, and_assoc]

/-- The two formulas of R90 in exact arithmetic. -/
theorem hostSizing_exact {n : Nat} {p : ℝ} (hn : 1 ≤ n) (h0 : 0 < p) (h1 : p < 1) :
    hostSizing (exactArith Real.log) n p =
      some (⌈-((n : ℝ) * Real.log p) / Real.log 2 ^ 2⌉,
        ⌈(⌈-((n : ℝ) * Real.log p) / Real.log 2 ^ 2⌉ : ℝ) / (n : ℝ) * Real.log 2⌉) := by
  rw [hostSizing, if_pos (sizingValid_exact_iff.mpr ⟨hn, h0, h1⟩)]
  simp [sizeM, sizeK, exactArith, sq]

/-- In the valid domain the number of bits before rounding up is positive: `ln p` is negative. -/
theorem sizingBits_pos {n : Nat} {p : ℝ} (hn : 1 ≤ n) (h0 : 0 < p) (h1 : p < 1) :
    0 < -((n : ℝ) * Real.log p) / Real.log 2 ^ 2 := by
  have hn' : (0 : ℝ) < n := by exact_mod_cast hn
  have hlog2 : 0 < Real.log 2 := Real.log_pos one_lt_two
  have hlogp : (n : ℝ) * Real.log p < 0 := mul_neg_of_pos_of_neg hn' (Real.log_neg h0 h1)
  exact div_pos (neg_pos.mpr hlogp) (pow_pos hlog2 2)

/-- With at least one bit the number of rounds before rounding up is positive. -/
theorem sizingRounds_pos {n : Nat} {m : Int} (hn : 1 ≤ n) (hm : 1 ≤ m) : 0 < (m : ℝ) / (n : ℝ) * Real.log 2 := by
  have hn' : (0 : ℝ) < n := by exact_mod_cast hn
  have hm' : (0 : ℝ) < m := by exact_mod_cast hm
  exact mul_pos (div_pos hm' hn') (Real.log_pos one_lt_two)

/-- 0 and 1 as binary64 numbers. -/
theorem binary64_ofInt_zero : Binary64.ofInt 0 = .finite false 0 binary64MinExp := rfl

theorem binary64_ofInt_one : Binary64.ofInt 1 = .finite false (2 ^ 52) (-52) := by decide

/-- No number with a minus sign is above 0. -/
theorem binary64_not_zero_lt_neg (a : Nat) (e : Int) : Binary64.lt (.ofInt 0) (.finite true a e) = false := by
  simp [binary64_ofInt_zero, Binary64.lt, signedSig]

/-- No zero is above 0. -/
theorem binary64_not_zero_lt_zero (s : Bool) (e : Int) : Binary64.lt (.ofInt 0) (.finite s 0 e) = false := by
  simp [binary64_ofInt_zero, Binary64.lt, signedSig]

/-- A number of at least 1 is not below 1: both sides are brought to `a * 2 ^ e` and 1. -/
theorem binary64_not_lt_one {a : Nat} {e : Int} (h : 2 ^ (-e).toNat ≤ a * 2 ^ e.toNat) :
    Binary64.lt (.finite false a e) (.ofInt 1) = false := by
  have ha : a ≠ 0 := by rintro rfl; simp at h
  have hexact : ((2 ^ 52 : Nat) : ℚ) * 2 ^ (-52 - e) ≤ a := by
    have hge := (scaled_lt a 1 (-e)).not.mp (by simpa using h)
    rw [not_lt, Nat.cast_one, one_mul] at hge
    refine le_trans (le_of_eq ?_) hge
    rw [Nat.cast_pow, Nat.cast_ofNat, ← zpow_natCast, ← zpow_add₀ two_ne_zero]
    congr 1
    push_cast
    ring
  have hscaled : 2 ^ 52 * 2 ^ (-52 - e).toNat ≤ a * 2 ^ (e - -52).toNat := by
    rw [← not_lt, show e - -52 = -(-52 - e) by ring, scaled_lt, not_lt]
    exact hexact
  have hsigned : ¬ signedSig false (a * 2 ^ (e - -52).toNat) < signedSig false (2 ^ 52 * 2 ^ (-52 - e).toNat) :=
    not_lt.mpr (Int.ofNat_le.mpr hscaled)
  rw [binary64_ofInt_one, Binary64.lt, if_neg (by simp [ha]), decide_eq_false hsigned]

/-- Settles O60: over the reals both formulas round a positive number up; each `p` to be refused is not above 0 or not
below 1. -/
theorem sizingGivesAUsableFilter : Obligations.SizingGivesAUsableFilter := by
  refine ⟨fun n p => ⟨fun hn h0 h1 => ?_, fun h => hostSizing_invalid ?_⟩, fun ln n p h => hostSizing_invalid ?_⟩
  · have hm := Int.one_le_ceil_iff.mpr (sizingBits_pos hn h0 h1)
    exact ⟨_, _, hostSizing_exact hn h0 h1, rfl, rfl, hm, Int.one_le_ceil_iff.mpr (sizingRounds_pos hn hm)⟩
  · rw [Bool.eq_false_iff, ne_eq, sizingValid_exact_iff]
    rintro ⟨hn, h0, h1⟩
    rcases h with rfl | h | h
    · omega
    · exact absurd h0 (not_lt.mpr h)
    · exact absurd h1 (not_lt.mpr h)
  · rcases h with rfl | rfl | ⟨s, rfl⟩ | ⟨a, e, rfl⟩ | ⟨s, e, rfl⟩ | ⟨a, e, rfl, h⟩
    · rfl
    · exact sizingValid_of_not_positive rfl
    · cases s with
      | false => exact sizingValid_of_not_below_one rfl
      | true => exact sizingValid_of_not_positive rfl
    · exact sizingValid_of_not_positive (binary64_not_zero_lt_neg a e)
    · exact sizingValid_of_not_positive (binary64_not_zero_lt_zero s e)
    · exact sizingValid_of_not_below_one (binary64_not_lt_one h)

end Sys2Proof.Machine
end

section
/-! Faults: what fault entry writes (R101), that a faulting command writes nothing else (R103), and the faulted state,
which only a reset leaves (R102, R106). -/

namespace Sys2Proof.Machine

/-- Settles O53: fault entry writes the record, and STATUS shows its flags and fields. -/
theorem faultEntryWritesOnlyTheRecord : Obligations.FaultEntryWritesOnlyTheRecord := by
  intro w code a s
  obtain ⟨hbusy, hfault, -, -⟩ := status_flags (s.enterFault w code a)
  obtain ⟨-, hcode, -, hop, -⟩ := status_fields (s.enterFault w code a)
  exact ⟨s.enterFault w code a, rfl, rfl, rfl, hbusy, hfault, hcode, hop⟩

/-- A command that turns FAULT on has entered the faulted state: a queued command that ends without a fault leaves FAULT
as it was, and SOFT_RESET clears it. -/
theorem exec_entersFault {i : Instr} {s t : State} (hs : s.fault = false) (h : exec i s = .next t)
    (ht : t.fault = true) : ∃ c a, c ≠ ErrCode.noFault ∧ t = s.enterFault (encode i) c a := by
  by_cases hi : i = .softReset
  · subst hi
    rw [execSoftReset_cases h] at ht
    cases ht
  · refine (exec_cases hi h).resolve_right fun e => ?_
    rw [e] at ht
    exact absurd ht (by simp [hs])

/-- Settles O54: the command has entered the faulted state, and fault entry writes the record alone. -/
theorem faultingCommandWritesNothingElse : Obligations.FaultingCommandWritesNothingElse := by
  intro i s t hs h ht
  obtain ⟨c, a, hc, rfl⟩ := exec_entersFault hs h ht
  refine ⟨?_, hc⟩
  rw [State.enterFault, opField_encode]

/-- In the faulted state a write that is no SOFT_RESET changes, at most, the operand registers and KEY (R102). -/
theorem writeTarget_faulted {s : State} (hf : s.fault = true) (hp : s.pend = none) (tg : Target) (d : Word) :
    ∃ a l m k b, writeTarget tg d s = { s with arg := a, keyLen := l, cfgM := m, cfgK := k, key := b } := by
  rcases writeTarget_cases tg d s with ⟨hbusy, -⟩ | e | ⟨-, hnf, -⟩ | ⟨-, a, l, m, k, e⟩ | ⟨-, j, -, e⟩
  · exact absurd hp hbusy
  · exact ⟨_, _, _, _, _, e⟩
  · rw [hf] at hnf; cases hnf
  · exact ⟨a, l, m, k, s.key, e⟩
  · exact ⟨_, _, _, _, _, e⟩

/-- In the faulted state an event that is no reset leaves all but the operand registers, KEY and the HOST side as it was
(R102, R106). -/
theorem outsideEvent_faulted {e : Event} {s t : State} (hf : s.fault = true) (hp : s.pend = none)
    (he : isResetEvent e = false) (h : outsideEvent e s = .next t) :
    t = { s with
          arg := t.arg, keyLen := t.keyLen, cfgM := t.cfgM, cfgK := t.cfgK, key := t.key, log := t.log
          draws := t.draws } := by
  rcases outsideEvent_cases h with ⟨hr, -⟩ | ⟨-, ⟨l, n, rfl⟩ | ⟨off, d, tg, l, -, -, -, rfl⟩⟩
  · rw [he] at hr; cases hr
  · rfl
  · obtain ⟨a, kl, m, k, b, e⟩ := writeTarget_faulted hf hp tg d
    rw [e]

/-- Settles O55: nothing is pending in the faulted state, so the step holds the state or serves an input that is no
reset. -/
theorem firstFaultIsKeptUntilReset : Obligations.FirstFaultIsKeptUntilReset := by
  intro s t hinv hf hr h
  have hp := hinv.fault_idle hf
  rcases step_cases h with ⟨-, -, rfl⟩ | ⟨ho, x, rest, hin, he⟩ | ⟨-, w, hw, -⟩
  · exact ⟨hf, rfl, rfl, rfl, hp, rfl, rfl, rfl, rfl, rfl⟩
  · rw [takesReset_of_input hin ho] at hr
    rw [outsideEvent_faulted (s := { s with inputs := rest }) hf hp hr he]
    exact ⟨hf, rfl, rfl, rfl, hp, rfl, rfl, rfl, rfl, rfl⟩
  · rw [hp] at hw; cases hw

end Sys2Proof.Machine
end

section
/-! Reset and hazards: a reset keeps nothing of the block (R116, R117), and what HOST's accesses do while a command is
pending: writes are dropped (R121), reads of RESULT and of the raw window are free (R122). -/

namespace Sys2Proof.Machine

/-- The state a reset leaves is fixed by the parameters and the HOST side (R116). -/
theorem resetBlock_congr {s u : State} (hparams : s.params = u.params) (hinputs : s.inputs = u.inputs)
    (hlog : s.log = u.log) (hdraws : s.draws = u.draws) : s.resetBlock = u.resetBlock := by
  rw [State.resetBlock, State.resetBlock, hparams, hinputs, hlog, hdraws]

/-- Settles O9: both resets answer `resetBlock`. -/
theorem resetForgetsTheBlock : Obligations.ResetForgetsTheBlock := by
  intro s u hparams hinputs hlog hdraws
  have h := congrArg (Host.Outcome.next (φ := Fault) (ρ := Refusal)) (resetBlock_congr hparams hinputs hlog hdraws)
  exact ⟨h, h⟩

/-- The next free draw, and the state that has made it (R122). -/
def State.drawFree (s : State) : Word × State := (Config.freeBusyRead s.draws, { s with draws := s.draws + 1 })

/-- While a command is pending RESULT reads as a free draw (R122). -/
theorem readTarget_result_busy {s : State} (hb : s.busy = true) : readTarget (.reg .result) s = s.drawFree :=
  if_pos ⟨rfl, hb⟩

/-- While a command is pending a raw-window word reads as a free draw (R40, R122). -/
theorem readTarget_rawWord_busy {s : State} (hb : s.busy = true) (w : Nat) :
    readTarget (.rawWord w) s = s.drawFree :=
  if_pos hb

/-- A read of a target that reads as a free draw returns it, and changes only the log and the count of draws. -/
theorem hostRead_drawFree {s : State} {off : Word} {tg : Target} (ht : decodeOffset s.params off = .ok tg)
    (hr : readTarget tg s = s.drawFree) :
    hostRead off s = s.drawFree.2.record (.read off) (.data s.drawFree.1) := by
  simp only [hostRead, ht, hr]

/-- Settles O16: the offset reaches RESULT or a raw-window word, and both read as a free draw. -/
theorem readsWhileBusyAreFreeDraws : Obligations.ReadsWhileBusyAreFreeDraws := by
  intro s off hp hpend hoff
  have hb := (busy_eq_true s).mpr hpend
  obtain rfl | ⟨ha, h1, h2⟩ := hoff
  · exact hostRead_drawFree (decodeOffset_regOff s.params .result) (readTarget_result_busy hb)
  · exact hostRead_drawFree (decodeOffset_rawWindow hp ha h1 h2) (readTarget_rawWord_busy hb _)

/-- While a command is pending a word issued at CMD is dropped (R121). -/
theorem writeTarget_cmd_busy {s : State} (hb : s.busy = true) (d : Word) :
    writeTarget (.reg .cmd) d s = s.noteOverrun :=
  if_pos hb

/-- While a command is pending a write to an operand register is dropped (R121). -/
theorem writeTarget_operand_busy {s : State} (hb : s.busy = true) {r : Reg} (hr : isOperand r = true) (d : Word) :
    writeTarget (.reg r) d s = s.noteOverrun := by
  have hcmd : r ≠ .cmd := by rintro rfl; cases hr
  simp only [writeTarget, if_neg hcmd, if_pos hr, if_pos hb]

/-- While a command is pending a write to a key-window word is dropped (R121). -/
theorem writeTarget_keyWord_busy {s : State} (hb : s.busy = true) (j : Nat) (d : Word) :
    writeTarget (.keyWord j) d s = s.noteOverrun :=
  if_pos hb

/-- A write that is no SOFT_RESET and that its target drops sets OVR and changes nothing else but the log. -/
theorem hostWrite_dropped {s : State} {off d : Word} {tg : Target} (ht : decodeOffset s.params off = .ok tg)
    (hc : tg = .reg .cmd → d ≠ encode .softReset) (hw : writeTarget tg d s = s.noteOverrun) :
    hostWrite off d s = .next (s.noteOverrun.record (.write off d) .done) := by
  have hnr : ¬ (tg = .reg .cmd ∧ d = encode .softReset) := fun ⟨hcmd, hd⟩ => hc hcmd hd
  simp only [hostWrite, ht, if_neg hnr, hw]

/-- While a command is pending a write to an operand register sets OVR and changes nothing else but the log (R121). -/
theorem hostWrite_operand_busy {s : State} (hb : s.busy = true) {r : Reg} (hr : isOperand r = true) (d : Word) :
    hostWrite (regOff r) d s = .next (s.noteOverrun.record (.write (regOff r) d) .done) :=
  hostWrite_dropped (decodeOffset_regOff s.params r) (by rintro ⟨⟩; cases hr) (writeTarget_operand_busy hb hr d)

/-- Settles O18: CMD, the operand registers and the key-window words each drop the write. -/
theorem writesWhileBusyAreDropped : Obligations.WritesWhileBusyAreDropped := by
  intro s off d hp hpend hoff
  have hb := (busy_eq_true s).mpr hpend
  obtain ⟨rfl, hd⟩ | rfl | rfl | rfl | rfl | ⟨ha, h1, h2⟩ := hoff
  · exact hostWrite_dropped (decodeOffset_regOff s.params .cmd) (fun _ => hd) (writeTarget_cmd_busy hb d)
  · exact hostWrite_operand_busy (r := .arg) hb rfl d
  · exact hostWrite_operand_busy (r := .keyLen) hb rfl d
  · exact hostWrite_operand_busy (r := .cfgM) hb rfl d
  · exact hostWrite_operand_busy (r := .cfgK) hb rfl d
  · exact hostWrite_dropped (decodeOffset_keyWindow ha h1 h2) nofun (writeTarget_keyWord_busy hb _ d)

end Sys2Proof.Machine
end
